-- ==== Sys2Proof/Config.lean ====
section
/-! DEFINITION. What the spec leaves to the implementation. Every algorithm parameter is fixed by the
source (spec 00_scope.md R7) and the open hardware parameters `IFACE_PROTOCOL`, `RESET_STYLE` and
`T_BEAT` are no argument of a step (R8, 92_eei_decisions.md), so one free value is all there is. -/

namespace Sys2Proof.Config

/-- A FREE VALUE (93_implementation_defined.md U4, 70_reset_and_hazards.md R101): when a host breaks
duty HD8 and applies reset during a request, whether the request was wholly executed before the reset
(`true`) or not executed at all (`false`). It has no body: nothing can be proved about its values. Its
argument is the state's counter `freeIndex`, so each use may differ. DESIGN CHOICE (both outcomes
allowed, where the spec also lets a model refuse), safe; log entry 4. -/
opaque requestBeatsReset : Nat → Bool

end Sys2Proof.Config
end

