-- ==== Sys2Proof/Word.lean ====
section
/-! DEFINITION. The fixed widths of the core (spec 00_scope.md R7, R9): every value is an unsigned
integer of one of these widths. -/

namespace Sys2Proof

/-- A block, an IV, a chaining value, a subkey or a response: 8 bits (R9). -/
abbrev Byte := BitVec 8

/-- Half a byte, the domain of the S-box formula: 4 bits (R9, R50). -/
abbrev Nibble := BitVec 4

/-- The key, one 32-bit integer and never a byte sequence (R9, R29). -/
abbrev Key32 := BitVec 32

/-- One bit (R9). -/
abbrev Bit := BitVec 1

/-- The request word `REQ`, bit 55 the most significant (R36, R29). -/
abbrev ReqWord := BitVec 56

end Sys2Proof
end

