-- ==== Sys2Proof/Syntax.lean ====
section
/-! DEFINITION. The ten operations of the core with the operands each one USES (spec 30_encoding.md
R38, R40, R45). A field an operation ignores is no operand of it. -/

namespace Sys2Proof

/-- One constructor per row of the operation table, operands in the order of the textual notation
(R45): din, key, iv. For the two CBC operations the last operand is `some v` for the first beat of a
call (`first = 1`, chain from `iv = v`; written `CBCE.F`, `CBCD.F`) and `none` for a later beat
(`first = 0`, chain from `CV`; no iv operand, R40). -/
inductive Instr where
  /-- `SBOX din`, op 0010 (R52). -/
  | sbox (din : Byte)
  /-- `SBOXI din`, op 0011 (R53). -/
  | sboxi (din : Byte)
  /-- `PBOX din`, op 0100 (R57). -/
  | pbox (din : Byte)
  /-- `PBOXI din`, op 0101 (R58). -/
  | pboxi (din : Byte)
  /-- `ENCB din, key`, op 0110 (R65). -/
  | encb (din : Byte) (key : Key32)
  /-- `DECB din, key`, op 0111 (R66). -/
  | decb (din : Byte) (key : Key32)
  /-- `ECBE din, key`, op 1000 (R72). -/
  | ecbe (din : Byte) (key : Key32)
  /-- `ECBD din, key`, op 1001 (R73). -/
  | ecbd (din : Byte) (key : Key32)
  /-- `CBCE.F din, key, iv` or `CBCE din, key`, op 1010 (R80). -/
  | cbce (din : Byte) (key : Key32) (iv : Option Byte)
  /-- `CBCD.F din, key, iv` or `CBCD din, key`, op 1011 (R81). -/
  | cbcd (din : Byte) (key : Key32) (iv : Option Byte)
deriving DecidableEq, Repr

end Sys2Proof
end

