-- ==== Sys2Proof/WellFormed.lean ====
section
/-! DEFINITION. Well-formedness. The types of the operands carry the whole well-formedness of an
`Instr`: every value of every used operand is legal with every operation (spec 30_encoding.md R40,
60_exceptions.md R88), so no further check on `Instr` exists and every statement about instructions
holds for all of them. What CAN be ill-formed is a request word; the check below is the spec's match
and mask form, written independently of the decoder. -/

namespace Sys2Proof

/-- The reserved bits `REQ[51:49]` are zero: `REQ & 0x0E000000000000 = 0` (R41, R42). -/
def reservedClear (w : ReqWord) : Bool := w &&& 0x0E000000000000#56 == 0#56

/-- The operation code `REQ[55:52]` is assigned: it is in 2..B (R38, R42). -/
def opAssigned (w : ReqWord) : Bool := 2 ≤ (w >>> 52).toNat && (w >>> 52).toNat ≤ 0xB

/-- A legal request word (R40, R42). -/
def legalWord (w : ReqWord) : Bool := reservedClear w && opAssigned w

end Sys2Proof
end

