-- ==== Sys2Proof/Decode.lean ====
section
/-! DEFINITION. The request word's fields, the decoder, total on every 56-bit word, and the encoder
(spec 30_encoding.md R36 to R46). -/

namespace Sys2Proof

/-- The fields of a request word, most significant first (R36, and the names `req.op` .. `req.din` of
00_scope.md R13). -/
structure Req where
  op : BitVec 4
  reserved : BitVec 3
  first : Bit
  key : Key32
  iv : Byte
  din : Byte
deriving DecidableEq, Repr

/-- The field layout of R36, read. -/
def Req.ofWord (w : ReqWord) : Req where
  op := w.extractLsb' 52 4
  reserved := w.extractLsb' 49 3
  first := w.extractLsb' 48 1
  key := w.extractLsb' 16 32
  iv := w.extractLsb' 8 8
  din := w.extractLsb' 0 8

/-- The field layout of R36, written: `{op, reserved, first, key, iv, din}`. -/
def Req.toWord (r : Req) : ReqWord :=
  r.op ++ r.reserved ++ r.first ++ r.key ++ r.iv ++ r.din

/-- Why a request word is illegal (R42). Reserved bits are looked at before the code (R44).
DEDUCED, safe; log entry 8. -/
inductive Illegal where
  /-- `REQ[51:49]` holds these bits, not `000` (R41). -/
  | reservedBits (bits : BitVec 3)
  /-- `REQ[55:52]` is one of the six codes 0, 1, C, D, E, F (R42). -/
  | opCode (op : BitVec 4)
deriving DecidableEq, Repr

/-- The iv operand of a CBC request: present when `first = 1`, ignored when `first = 0` (R40).
DEDUCED, safe; log entry 5. -/
def Req.ivOperand (r : Req) : Option Byte := if r.first = 1#1 then some r.iv else none

/-- The operation of a request whose reserved bits are zero (the case list of R44). -/
def Req.operation (r : Req) : Except Illegal Instr :=
  match r.op.toNat with
  | 0x2 => .ok (.sbox r.din)
  | 0x3 => .ok (.sboxi r.din)
  | 0x4 => .ok (.pbox r.din)
  | 0x5 => .ok (.pboxi r.din)
  | 0x6 => .ok (.encb r.din r.key)
  | 0x7 => .ok (.decb r.din r.key)
  | 0x8 => .ok (.ecbe r.din r.key)
  | 0x9 => .ok (.ecbd r.din r.key)
  | 0xA => .ok (.cbce r.din r.key r.ivOperand)
  | 0xB => .ok (.cbcd r.din r.key r.ivOperand)
  | _ => .error (.opCode r.op)

/-- Decoding, total on every word, independent of any state (R43, R44). -/
def decode (w : ReqWord) : Except Illegal Instr :=
  let r := Req.ofWord w
  if r.reserved = 0#3 then r.operation else .error (.reservedBits r.reserved)

/-- The canonical fields of an instruction: zero in every field it ignores and in the reserved bits
(R45, R46). -/
def Instr.toReq : Instr → Req
  | .sbox d => ⟨0x2, 0, 0, 0, 0, d⟩
  | .sboxi d => ⟨0x3, 0, 0, 0, 0, d⟩
  | .pbox d => ⟨0x4, 0, 0, 0, 0, d⟩
  | .pboxi d => ⟨0x5, 0, 0, 0, 0, d⟩
  | .encb d k => ⟨0x6, 0, 0, k, 0, d⟩
  | .decb d k => ⟨0x7, 0, 0, k, 0, d⟩
  | .ecbe d k => ⟨0x8, 0, 0, k, 0, d⟩
  | .ecbd d k => ⟨0x9, 0, 0, k, 0, d⟩
  | .cbce d k (some v) => ⟨0xA, 0, 1, k, v, d⟩
  | .cbce d k none => ⟨0xA, 0, 0, k, 0, d⟩
  | .cbcd d k (some v) => ⟨0xB, 0, 1, k, v, d⟩
  | .cbcd d k none => ⟨0xB, 0, 0, k, 0, d⟩

/-- The canonical word of an instruction (R46). -/
def encode (i : Instr) : ReqWord := i.toReq.toWord

/-- The bits of a legal word that its operation ignores (R40). -/
def ignoredBits (w : ReqWord) : ReqWord :=
  let op := (w >>> 52).toNat
  if op ≤ 0x5 then 0x01FFFFFFFFFF00#56
  else if op ≤ 0x9 then 0x0100000000FF00#56
  else if w.getLsbD 48 then 0#56 else 0x0000000000FF00#56

/-- A canonical word: legal, and zero in every ignored bit (R46). -/
def canonicalWord (w : ReqWord) : Bool := legalWord w && w &&& ignoredBits w == 0#56

/-- The word whose bits are those of `w` up to `nbits`, the bits above being 0. -/
def tableWord (nbits w : Nat) : Nat := w % 2 ^ nbits

/-- What the decoder reads from a word given as spec/opcode_table.json numbers its bits: bit 0 is bit
0 of the 56-bit request word. A word that does not fit 56 bits is no request. DEDUCED, safe; log
entry 7. -/
def decodeTableWord (nbits w : Nat) : Option Instr :=
  if tableWord nbits w < 2 ^ 56 then (decode (BitVec.ofNat 56 (tableWord nbits w))).toOption
  else none

end Sys2Proof
end

