-- ==== Sys2Proof/Machine/State.lean ====
section
/-! DEFINITION. The state of the machine, the reasons a step can stop, and the state after reset
(spec 10_state.md R14 to R23, 20_memory.md R25, 70_reset_and_hazards.md R100). -/

namespace Sys2Proof.Machine

/-- What the host can do to the core (00_scope.md R5, 70_reset_and_hazards.md R108). -/
inductive HostAction where
  /-- Present one request word (R25). -/
  | request (w : ReqWord)
  /-- Apply reset between two requests (R100). -/
  | reset
  /-- Apply reset while the request `w` is in progress, which breaks duty HD8 (R101, R103). -/
  | resetDuring (w : ReqWord)
deriving DecidableEq, Repr

/-- The core's faults: there are none, for no operation and no operand (60_exceptions.md R88, R91;
30_encoding.md R49, "There is no fault outcome and no stuck outcome"). -/
inductive Fault
deriving DecidableEq, Repr

/-- The requests the model gives no meaning. -/
inductive Refusal where
  /-- Raised by an arm of `exec` that has no meaning yet; no arm of this model raises it. Safe. -/
  | notModelled (mnemonic : String)
  /-- Raised by a step on an illegal request word, whatever `CV` holds (R42, R90; U1). The spec orders
  the refusal and says nothing of what the hardware does. Safe. -/
  | illegalRequest (why : Illegal)
  /-- Raised by CBCE and CBCD with `first = 0` while `CV` holds no value (R16, R79; U2). The spec
  orders the refusal: the request has no defined result. Safe. -/
  | chainFromNoValue
deriving DecidableEq, Repr

/-- The state. `cv` is the whole architectural state of the core (R14). The other fields are the two
streams of the interface (R25), in which a step finds its request and leaves its response, and the
model's own counter; no operation reads them (R22). DESIGN CHOICE, safe; log entries 1 and 4. -/
structure State where
  /-- The chaining register `CV`: no value, or one byte (R14, R15, R16). -/
  cv : Option Byte
  /-- The host's actions not yet taken up, in the order presented (R25, R33, R108). -/
  inputs : List HostAction
  /-- The responses since the last reset: element n is response number n (R25, R37, R100). -/
  rsp : List Byte
  /-- The responses before the last reset, one list for each stretch between resets, oldest first
  (R100: the numbering starts again; R108: a claim may speak of all the responses of a run). -/
  past : List (List Byte)
  /-- The model's own counter, the argument of the free value of `Config` (log entry 4). -/
  freeIndex : Nat
deriving DecidableEq, Repr

/-- The machine right after reset: `CV` holds no value (R23). Nothing has been presented and nothing
answered; the counter's start is a DESIGN CHOICE, safe; log entries 1 and 4. -/
def State.reset : State where
  cv := none
  inputs := []
  rsp := []
  past := []
  freeIndex := 0

/-- All the responses of a run, in request order: what an observer sees (00_scope.md R6, R108). -/
def State.observed (s : State) : List Byte := s.past.flatten ++ s.rsp

end Sys2Proof.Machine
end

