-- ==== Sys2Proof/Machine/Ops.lean ====
section
/-! DEFINITION. The shared operations: bit fields and truncation (spec 00_scope.md R11, R12), and the
named operations over the state. The core has no exceptions to take and none to return from
(60_exceptions.md R88, R91, R92), no memory (20_memory.md R24) and one register, `CV`. -/

namespace Sys2Proof.Machine

/-- The bit-field extractor `field(v, k, p)`: k bits of v from the 1-indexed position p, right-aligned
(R12; at the width of its operand, 90_conflicts.md C2). -/
def field {w : Nat} (v : BitVec w) (k p : Nat) : BitVec k := v.extractLsb' (p - 1) k

/-- `trunc8(a) = a mod 256` (R11). -/
def trunc8 (a : Nat) : Byte := BitVec.ofNat 8 a

/-- Deliver the response byte of a request: `dout <- b` (R13, R25, R37). -/
def State.respond (b : Byte) (s : State) : State := { s with rsp := s.rsp ++ [b] }

/-- `CV <- some v` (R13, R15). -/
def State.writeCV (v : Byte) (s : State) : State := { s with cv := some v }

/-- Reset, the whole of it: `CV` holds no value, no response, and the numbering of responses starts
again at 0 (R23, R100). -/
def State.applyReset (s : State) : State :=
  { s with cv := none, rsp := [], past := s.past ++ [s.rsp] }

/-- Advance the free value's counter (log entry 4). -/
def State.nextFree (s : State) : State := { s with freeIndex := s.freeIndex + 1 }

/-- Take the oldest action the host has presented (R33). -/
def State.takeAction (s : State) : Option (HostAction × State) :=
  match s.inputs with
  | [] => none
  | a :: rest => some (a, { s with inputs := rest })

/-- Put a request in front of the core, to be the next one executed. -/
def State.presentNext (w : ReqWord) (s : State) : State :=
  { s with inputs := .request w :: s.inputs }

/-- The host presents requests behind those already waiting, as canonical words (R33, R46). -/
def State.present (is : List Instr) (s : State) : State :=
  { s with inputs := s.inputs ++ is.map fun i => .request (encode i) }

end Sys2Proof.Machine
end

