-- ==== Sys2Proof/Machine/Operands.lean ====
section
/-! DEFINITION. Operand forms. `din`, `key` and `iv` are used as they stand (spec 30_encoding.md R36);
the one operand that is chosen is the chaining input of the CBC operations (44_cbc.md R79). -/

namespace Sys2Proof.Machine

/-- The chaining input `cin`: the request's iv when `first = 1`, and then `CV` is not read; else what
`CV` holds, `none` where it holds no value (R79). -/
def chainInput (iv : Option Byte) (s : State) : Option Byte :=
  match iv with
  | some v => some v
  | none => s.cv

/-- The CBC operations, the only ones that touch `CV` (10_state.md R22). -/
def isCbc : Instr → Bool
  | .sbox _ | .sboxi _ | .pbox _ | .pboxi _ => false
  | .encb _ _ | .decb _ _ | .ecbe _ _ | .ecbd _ _ => false
  | .cbce _ _ _ | .cbcd _ _ _ => true

/-- The requests that read `CV`: CBC with `first = 0` (R22, R79). -/
def chainsFromCV : Instr → Bool
  | .sbox _ | .sboxi _ | .pbox _ | .pboxi _ => false
  | .encb _ _ | .decb _ _ | .ecbe _ _ | .ecbd _ _ => false
  | .cbce _ _ iv | .cbcd _ _ iv => iv.isNone

end Sys2Proof.Machine
end

