-- ==== Sys2Proof/Machine/Pbox.lean ====
section
/-! DEFINITION. The P-box pair: rotate a byte left or right by 2, and the operations PBOX and PBOXI
(spec 41_pbox.md R57, R58). -/

namespace Sys2Proof.Machine

/-- The byte function `PBOX`: `trunc8(v << 2) | v[7:6]` (R57; the truncation is mandatory, R70). -/
def pbox (v : Byte) : Byte := trunc8 (v.toNat <<< 2) ||| (field v 2 7).setWidth 8

/-- The byte function `PBOXI`: `(v >> 2) | (v[1:0] << 6)`, a logical shift (R58). -/
def pboxi (v : Byte) : Byte := (v >>> 2) ||| ((field v 2 1).setWidth 8 <<< 6)

/-- Operation PBOX (R57). -/
def execPbox (din : Byte) (s : State) : Host.Outcome State Fault Refusal :=
  .next (s.respond (pbox din))

/-- Operation PBOXI (R58). -/
def execPboxi (din : Byte) (s : State) : Host.Outcome State Fault Refusal :=
  .next (s.respond (pboxi din))

end Sys2Proof.Machine
end

