-- ==== Sys2Proof/Machine/Sbox.lean ====
section
/-! DEFINITION. The S-box pair: the nibble functions, the byte functions, and the operations SBOX and
SBOXI (spec 40_sbox.md R50 to R53). -/

namespace Sys2Proof.Machine

/-- `S4(x) = ((x + 1) * 7) mod 16`, in natural numbers (R50). -/
def s4 (x : Nibble) : Nibble := BitVec.ofNat 4 ((x.toNat + 1) * 7 % 16)

/-- `S4I(y)`: the x in 0..15 with `S4(x) = y`, found by search as the source does; the search always
succeeds (R51), so its default is never used (DEDUCED, safe; log entry 9). -/
def s4i (y : Nibble) : Nibble :=
  (((List.range 16).map (BitVec.ofNat 4)).find? fun x => s4 x == y).getD 0#4

/-- Substitute each nibble of a byte and recombine, `(f(hi) << 4) | f(lo)` (R52, R53). -/
def onNibbles (f : Nibble → Nibble) (v : Byte) : Byte :=
  ((f (field v 4 5)).setWidth 8 <<< 4) ||| (f (field v 4 1)).setWidth 8

/-- The byte function `SBOX` (R52). -/
def sbox (v : Byte) : Byte := onNibbles s4 v

/-- The byte function `SBOXI` (R53). -/
def sboxi (v : Byte) : Byte := onNibbles s4i v

/-- Operation SBOX (R52). -/
def execSbox (din : Byte) (s : State) : Host.Outcome State Fault Refusal :=
  .next (s.respond (sbox din))

/-- Operation SBOXI (R53). -/
def execSboxi (din : Byte) (s : State) : Host.Outcome State Fault Refusal :=
  .next (s.respond (sboxi din))

end Sys2Proof.Machine
end

