-- ==== Sys2Proof/Machine/BlockCipher.lean ====
section
/-! DEFINITION. The key schedule, the block functions E and D with the named intermediate values of
their traces, and the operations ENCB and DECB (spec 42_block_cipher.md R62 to R66). -/

namespace Sys2Proof.Machine

/-- Subkey 1, `key[31:24]`, the most significant byte (R62). -/
def subkey1 (key : Key32) : Byte := field key 8 25

/-- Subkey 2, `key[23:16]` (R62). -/
def subkey2 (key : Key32) : Byte := field key 8 17

/-- Subkey 3, `key[15:8]` (R62). -/
def subkey3 (key : Key32) : Byte := field key 8 9

/-- Subkey 4, `key[7:0]`, the least significant byte (R62). -/
def subkey4 (key : Key32) : Byte := field key 8 1

/-- The nine named values of one encryption. They are not state (R63, 10_state.md R21). -/
structure EncTrace where
  t1 : Byte
  t2 : Byte
  t3 : Byte
  t4 : Byte
  t5 : Byte
  t6 : Byte
  t7 : Byte
  t8 : Byte
  t9 : Byte
deriving DecidableEq, Repr

/-- The stages of block encryption (R63). -/
def encTrace (m : Byte) (key : Key32) : EncTrace :=
  let t1 := m ^^^ subkey1 key
  let t2 := sbox t1
  let t3 := pbox t2
  let t4 := t3 ^^^ subkey2 key
  let t5 := sbox t4
  let t6 := pbox t5
  let t7 := t6 ^^^ subkey3 key
  let t8 := sbox t7
  let t9 := t8 ^^^ subkey4 key
  ⟨t1, t2, t3, t4, t5, t6, t7, t8, t9⟩

/-- Block encryption `E(m, key)` (R63). -/
def blockE (m : Byte) (key : Key32) : Byte := (encTrace m key).t9

/-- The nine named values of one decryption. They are not state (R64, 10_state.md R21). -/
structure DecTrace where
  u1 : Byte
  u2 : Byte
  u3 : Byte
  u4 : Byte
  u5 : Byte
  u6 : Byte
  u7 : Byte
  u8 : Byte
  u9 : Byte
deriving DecidableEq, Repr

/-- The stages of block decryption: inside a round inverse-permute first, then inverse-substitute
(R64). -/
def decTrace (c : Byte) (key : Key32) : DecTrace :=
  let u1 := c ^^^ subkey4 key
  let u2 := sboxi u1
  let u3 := u2 ^^^ subkey3 key
  let u4 := pboxi u3
  let u5 := sboxi u4
  let u6 := u5 ^^^ subkey2 key
  let u7 := pboxi u6
  let u8 := sboxi u7
  let u9 := u8 ^^^ subkey1 key
  ⟨u1, u2, u3, u4, u5, u6, u7, u8, u9⟩

/-- Block decryption `D(c, key)` (R64). -/
def blockD (c : Byte) (key : Key32) : Byte := (decTrace c key).u9

/-- Operation ENCB (R65). -/
def execEncb (din : Byte) (key : Key32) (s : State) : Host.Outcome State Fault Refusal :=
  .next (s.respond (blockE din key))

/-- Operation DECB (R66). -/
def execDecb (din : Byte) (key : Key32) (s : State) : Host.Outcome State Fault Refusal :=
  .next (s.respond (blockD din key))

end Sys2Proof.Machine
end

