-- ==== Sys2Proof/Machine/Cbc.lean ====
section
/-! DEFINITION. The CBC controller, the only unit that touches `CV`: one beat of `encrypt_cbc` or
`decrypt_cbc` (spec 44_cbc.md R79 to R81; 90_conflicts.md C1 for decryption). -/

namespace Sys2Proof.Machine

/-- Operation CBCE: XOR with the chaining input, encrypt, respond, and chain the ciphertext byte just
produced (R80). -/
def execCbce (din : Byte) (key : Key32) (iv : Option Byte) (s : State) :
    Host.Outcome State Fault Refusal :=
  match chainInput iv s with
  | none => .refused .chainFromNoValue
  | some cin =>
    let y := blockE (din ^^^ cin) key
    .next ((s.respond y).writeCV y)

/-- Operation CBCD: decrypt, XOR with the chaining input in force before this beat, respond, and chain
the ciphertext byte just consumed (R81, C1). -/
def execCbcd (din : Byte) (key : Key32) (iv : Option Byte) (s : State) :
    Host.Outcome State Fault Refusal :=
  match chainInput iv s with
  | none => .refused .chainFromNoValue
  | some cin => .next ((s.respond (blockD din key ^^^ cin)).writeCV din)

end Sys2Proof.Machine
end

