-- ==== Sys2Proof/Machine/Ecb.lean ====
section
/-! DEFINITION. The ECB controller: one beat of `encrypt_ecb` or `decrypt_ecb` (spec 43_ecb.md R72,
R73). No index, no length, no state between beats. -/

namespace Sys2Proof.Machine

/-- Operation ECBE (R72). -/
def execEcbe (din : Byte) (key : Key32) (s : State) : Host.Outcome State Fault Refusal :=
  .next (s.respond (blockE din key))

/-- Operation ECBD (R73). -/
def execEcbd (din : Byte) (key : Key32) (s : State) : Host.Outcome State Fault Refusal :=
  .next (s.respond (blockD din key))

end Sys2Proof.Machine
end

