-- ==== Sys2Proof/Machine/Dispatch.lean ====
section
/-! DEFINITION. Dispatch: the meaning of each decoded request (spec 30_encoding.md R49). -/

namespace Sys2Proof.Machine

def exec (i : Instr) (s : State) : Host.Outcome State Fault Refusal :=
  match i with
  | .sbox din => Sys2Proof.Machine.execSbox din s
  | .sboxi din => Sys2Proof.Machine.execSboxi din s
  | .pbox din => Sys2Proof.Machine.execPbox din s
  | .pboxi din => Sys2Proof.Machine.execPboxi din s
  | .encb din key => Sys2Proof.Machine.execEncb din key s
  | .decb din key => Sys2Proof.Machine.execDecb din key s
  | .ecbe din key => Sys2Proof.Machine.execEcbe din key s
  | .ecbd din key => Sys2Proof.Machine.execEcbd din key s
  | .cbce din key iv => Sys2Proof.Machine.execCbce din key iv s
  | .cbcd din key iv => Sys2Proof.Machine.execCbcd din key iv s

end Sys2Proof.Machine
end

