-- ==== Sys2Proof/Machine/Actions.lean ====
section
/-! DEFINITION. What one action of the host does to the core (spec 30_encoding.md R49,
70_reset_and_hazards.md R100, R101). -/

namespace Sys2Proof.Machine

/-- Execute a request word. An illegal word is refused at decode, before `CV` is looked at (R49,
60_exceptions.md R90). -/
def execRequest (w : ReqWord) (s : State) : Host.Outcome State Fault Refusal :=
  match decode w with
  | .error why => .refused (.illegalRequest why)
  | .ok i => exec i s

/-- Reset applied while the request `w` is in progress (R101, U4). The request is atomic: wholly
executed before the reset, or not executed at all; which of the two is the free value of `Config`. A
run that contains an illegal word is refused either way (R42). -/
def execResetDuring (w : ReqWord) (s : State) : Host.Outcome State Fault Refusal :=
  match decode w with
  | .error why => .refused (.illegalRequest why)
  | .ok i =>
    if Config.requestBeatsReset s.freeIndex then
      match exec i s.nextFree with
      | .next t => .next t.applyReset
      | .fault f => .fault f
      | .refused r => .refused r
    else .next s.nextFree.applyReset

/-- One action of the host (R108). -/
def doAction (a : HostAction) (s : State) : Host.Outcome State Fault Refusal :=
  match a with
  | .request w => execRequest w s
  | .reset => .next s.applyReset
  | .resetDuring w => execResetDuring w s

end Sys2Proof.Machine
end

