-- ==== Sys2Proof/Machine/Step.lean ====
section
/-! DEFINITION. One step of the machine: the oldest action the host has presented is taken and done,
completely (spec 20_memory.md R33, 30_encoding.md R49). -/

namespace Sys2Proof.Machine

/-- One step. Where the host has presented nothing the core changes nothing: a gap between requests
(70_reset_and_hazards.md R107, 20_memory.md R33 (c); DEDUCED, safe; log entry 2). -/
def step (s : State) : Host.Outcome State Fault Refusal :=
  match s.takeAction with
  | none => .next s
  | some (a, t) => doAction a t

/-- The word of spec/opcode_table.json's numbering presented as the next request. DESIGN
CHOICE, safe; log entry 3. -/
def State.withFetchWord (s : State) (nbits w : Nat) : State :=
  s.presentNext (BitVec.ofNat 56 (tableWord nbits w))

end Sys2Proof.Machine
end

