-- ==== Sys2Proof/Machine/Assembler.lean ====
section
/-! DEFINITION. The textual notation of a request, read and written (spec 30_encoding.md R45, R46).
Text is a list of characters. What the notation leaves open is fixed by DESIGN CHOICE, safe; log entry 6. -/

namespace Sys2Proof.Machine

/-- The hexadecimal digit of a nibble. -/
def hexChar (n : Nibble) : Char :=
  if n.toNat < 10 then Char.ofNat (48 + n.toNat) else Char.ofNat (55 + n.toNat)

/-- A byte as `0x` and two digits. -/
def byteText (b : Byte) : List Char :=
  ['0', 'x', hexChar (b.extractLsb' 4 4), hexChar (b.extractLsb' 0 4)]

/-- A key as `0x` and eight digits. -/
def keyText (k : Key32) : List Char :=
  ['0', 'x', hexChar (k.extractLsb' 28 4), hexChar (k.extractLsb' 24 4),
    hexChar (k.extractLsb' 20 4), hexChar (k.extractLsb' 16 4), hexChar (k.extractLsb' 12 4),
    hexChar (k.extractLsb' 8 4), hexChar (k.extractLsb' 4 4), hexChar (k.extractLsb' 0 4)]

/-- The mnemonic, with the suffix `.F` on the first beat of a CBC call (R45). -/
def mnemonicText : Instr → List Char
  | .sbox _ => ['S', 'B', 'O', 'X']
  | .sboxi _ => ['S', 'B', 'O', 'X', 'I']
  | .pbox _ => ['P', 'B', 'O', 'X']
  | .pboxi _ => ['P', 'B', 'O', 'X', 'I']
  | .encb _ _ => ['E', 'N', 'C', 'B']
  | .decb _ _ => ['D', 'E', 'C', 'B']
  | .ecbe _ _ => ['E', 'C', 'B', 'E']
  | .ecbd _ _ => ['E', 'C', 'B', 'D']
  | .cbce _ _ none => ['C', 'B', 'C', 'E']
  | .cbce _ _ (some _) => ['C', 'B', 'C', 'E', '.', 'F']
  | .cbcd _ _ none => ['C', 'B', 'C', 'D']
  | .cbcd _ _ (some _) => ['C', 'B', 'C', 'D', '.', 'F']

/-- The used operands in the order din, key, iv, separated by commas (R45). -/
def operandText : Instr → List Char
  | .sbox d | .sboxi d | .pbox d | .pboxi d => byteText d
  | .encb d k | .decb d k | .ecbe d k | .ecbd d k => byteText d ++ [',', ' '] ++ keyText k
  | .cbce d k none | .cbcd d k none => byteText d ++ [',', ' '] ++ keyText k
  | .cbce d k (some v) | .cbcd d k (some v) =>
    byteText d ++ [',', ' '] ++ keyText k ++ [',', ' '] ++ byteText v

/-- The text of a request: mnemonic, space, operands (R45). Its spacing and fixed-width capital digits are
a DESIGN CHOICE, safe; log entry 6. -/
def instrText (i : Instr) : List Char := mnemonicText i ++ [' '] ++ operandText i

/-- The text a request word disassembles to; an illegal word has none (R46). -/
def disassemble (w : ReqWord) : Option (List Char) := (decode w).toOption.map instrText

/-- A token of a line. -/
inductive Token where
  /-- A mnemonic or a number. -/
  | word (cs : List Char)
  /-- A character in single quotes. -/
  | quoted (c : Char)
  | comma
deriving DecidableEq, Repr

/-- Put a word in progress, read backwards, before the tokens after it. -/
def flushWord (acc : List Char) (ts : List Token) : List Token :=
  if acc = [] then ts else .word acc.reverse :: ts

/-- Where the reading of a line stands: in plain text with a word in progress read backwards, just
after an opening quote, or after a quote and its character. -/
inductive LexMode where
  | plain (acc : List Char)
  | quote
  | quoteChar (c : Char)
deriving DecidableEq, Repr

/-- The tokens of a line: `;` starts a comment, and 39 is the single quote (R45). DESIGN CHOICE, safe
(log entry 6), where R45 is silent: spaces and tabs separate words; a comma, a single quote and a `;`
end the word before them, so no blank is needed between a mnemonic and a quoted first operand; between
quotes any one character stands for itself, `;`, `,`, a blank and the quote too. -/
def tokens : List Char → LexMode → Option (List Token)
  | [], .plain acc => some (flushWord acc [])
  | [], .quote => none
  | [], .quoteChar _ => none
  | c :: cs, .plain acc =>
    if c = ';' then some (flushWord acc [])
    else if c = ',' then (tokens cs (.plain [])).map fun ts => flushWord acc (.comma :: ts)
    else if c = ' ' ∨ c = '\t' then (tokens cs (.plain [])).map (flushWord acc)
    else if c.toNat = 39 then (tokens cs .quote).map (flushWord acc)
    else tokens cs (.plain (c :: acc))
  | c :: cs, .quote => tokens cs (.quoteChar c)
  | c :: cs, .quoteChar d =>
    if c.toNat = 39 then (tokens cs (.plain [])).map fun ts => .quoted d :: ts else none

/-- The value of a digit, in either case of letter (DESIGN CHOICE, safe; log entry 6). -/
def digitValue (c : Char) : Option Nat :=
  if 48 ≤ c.toNat ∧ c.toNat ≤ 57 then some (c.toNat - 48)
  else if 65 ≤ c.toNat ∧ c.toNat ≤ 70 then some (c.toNat - 55)
  else if 97 ≤ c.toNat ∧ c.toNat ≤ 102 then some (c.toNat - 87)
  else none

/-- Digits of a base below or equal to 16, after the value read so far. -/
def digits (base : Nat) : List Char → Nat → Option Nat
  | [], acc => some acc
  | c :: cs, acc =>
    match digitValue c with
    | none => none
    | some d => if d < base then digits base cs (acc * base + d) else none

/-- A number: hexadecimal with `0x`, or decimal (R45). Any number of digits, leading zeros included, and
a lower-case `x`: DESIGN CHOICE, safe; log entry 6. -/
def number : List Char → Option Nat
  | [] => none
  | '0' :: 'x' :: c :: cs => digits 16 (c :: cs) 0
  | c :: cs => digits 10 (c :: cs) 0

/-- The value of an operand: a number, or the ASCII byte of a quoted character (R45); a
character above code 127 has none. A number or a quoted character may be any operand, the key too, for
which the character's byte is the key's value (zero-extended). DESIGN CHOICE, safe; log entry 6. -/
def operandValue : Token → Option Nat
  | .word cs => number cs
  | .quoted c => if c.toNat < 128 then some c.toNat else none
  | .comma => none

/-- The operands of a request, separated by commas (R45). -/
def operandList : List Token → Option (List Nat)
  | [] => none
  | [t] => (operandValue t).map fun n => [n]
  | t :: .comma :: ts =>
    match operandValue t, operandList ts with
    | some n, some ns => some (n :: ns)
    | _, _ => none
  | _ :: _ :: _ => none

/-- An operand that fits its width; one that does not is no operand (DESIGN CHOICE, safe; log entry
6). -/
def fit (w n : Nat) : Option (BitVec w) := if n < 2 ^ w then some (BitVec.ofNat w n) else none

/-- A request of the form `MNEMONIC din`. -/
def withDin (mk : Byte → Instr) : List Nat → Option Instr
  | [d] => (fit 8 d).map mk
  | _ => none

/-- A request of the form `MNEMONIC din, key`. -/
def withKey (mk : Byte → Key32 → Instr) : List Nat → Option Instr
  | [d, k] => (fit 8 d).bind fun d => (fit 32 k).map fun k => mk d k
  | _ => none

/-- A request of the form `MNEMONIC.F din, key, iv`. -/
def withIv (mk : Byte → Key32 → Byte → Instr) : List Nat → Option Instr
  | [d, k, v] =>
    (fit 8 d).bind fun d => (fit 32 k).bind fun k => (fit 8 v).map fun v => mk d k v
  | _ => none

/-- A request from its mnemonic and operands: the suffix `.F` requires the iv operand, and without it
no iv operand is written (R45). -/
def assembleRequest (m : List Char) (ns : List Nat) : Option Instr :=
  if m = ['S', 'B', 'O', 'X'] then withDin .sbox ns
  else if m = ['S', 'B', 'O', 'X', 'I'] then withDin .sboxi ns
  else if m = ['P', 'B', 'O', 'X'] then withDin .pbox ns
  else if m = ['P', 'B', 'O', 'X', 'I'] then withDin .pboxi ns
  else if m = ['E', 'N', 'C', 'B'] then withKey .encb ns
  else if m = ['D', 'E', 'C', 'B'] then withKey .decb ns
  else if m = ['E', 'C', 'B', 'E'] then withKey .ecbe ns
  else if m = ['E', 'C', 'B', 'D'] then withKey .ecbd ns
  else if m = ['C', 'B', 'C', 'E'] then withKey (fun d k => .cbce d k none) ns
  else if m = ['C', 'B', 'C', 'E', '.', 'F'] then withIv (fun d k v => .cbce d k (some v)) ns
  else if m = ['C', 'B', 'C', 'D'] then withKey (fun d k => .cbcd d k none) ns
  else if m = ['C', 'B', 'C', 'D', '.', 'F'] then withIv (fun d k v => .cbcd d k (some v)) ns
  else none

/-- One line: no request (a blank line or a comment) or one request (R45); `none` where the line is
not of the notation. -/
def assembleLine (cs : List Char) : Option (List Instr) :=
  match tokens cs (.plain []) with
  | some [] => some []
  | some (.word m :: ts) =>
    ((operandList ts).bind (assembleRequest m)).map fun i => [i]
  | _ => none

/-- The lines of a text. R45 says "One request per line" and not what ends a line: a line feed does, and
nothing else; a carriage return is an ordinary character, so a text with CR LF line ends does not
assemble outside its comments. The last line needs no line feed. DESIGN CHOICE, safe; log entry 6. -/
def linesOf : List Char → List (List Char)
  | [] => [[]]
  | c :: cs =>
    if c = '\n' then [] :: linesOf cs
    else match linesOf cs with
      | [] => [[c]]
      | l :: ls => (c :: l) :: ls

/-- A text of one request a line, in order, as canonical words (R45, R46); none where any line is not of
the notation (DESIGN CHOICE, safe; log entry 6). -/
def assemble (cs : List Char) : Option (List ReqWord) :=
  ((linesOf cs).mapM assembleLine).map fun is => is.flatten.map encode

end Sys2Proof.Machine
end

