-- ==== Sys2Proof/Machine/Calls.lean ====
section
/-! DEFINITION. Calls: the source's public functions on whole buffers and, for each, the sequence of
requests that is its call (spec 20_memory.md R26, R27; 30_encoding.md R47, R48; 43_ecb.md R74;
44_cbc.md R82, R83). -/

namespace Sys2Proof.Machine

/-- `encrypt_ecb(B, k)` (R74). -/
def encryptEcb (B : List Byte) (k : Key32) : List Byte := B.map fun b => blockE b k

/-- `decrypt_ecb(B, k)` (R74). -/
def decryptEcb (B : List Byte) (k : Key32) : List Byte := B.map fun b => blockD b k

/-- `encrypt_cbc(B, k, v)`: the next chaining value is the ciphertext byte produced (R82). -/
def encryptCbc : List Byte → Key32 → Byte → List Byte
  | [], _, _ => []
  | b :: B, k, v => blockE (b ^^^ v) k :: encryptCbc B k (blockE (b ^^^ v) k)

/-- `decrypt_cbc(B, k, v)`: the next chaining value is the ciphertext byte consumed (R83). -/
def decryptCbc : List Byte → Key32 → Byte → List Byte
  | [], _, _ => []
  | b :: B, k, v => (blockD b k ^^^ v) :: decryptCbc B k b

/-- `encrypt_block(m, k)` (R47). -/
def callEncryptBlock (m : Byte) (k : Key32) : List Instr := [.encb m k]

/-- `decrypt_block(c, k)` (R47). -/
def callDecryptBlock (c : Byte) (k : Key32) : List Instr := [.decb c k]

/-- `encrypt_ecb(B, k)`, one ECBE per element (R47). -/
def callEncryptEcb (B : List Byte) (k : Key32) : List Instr := B.map fun b => .ecbe b k

/-- `decrypt_ecb(B, k)`, one ECBD per element (R47). -/
def callDecryptEcb (B : List Byte) (k : Key32) : List Instr := B.map fun b => .ecbd b k

/-- `encrypt_cbc(B, k, v)`: `CBCE.F B[0], k, v`, then `CBCE B[i], k` (R47). -/
def callEncryptCbc (B : List Byte) (k : Key32) (v : Byte) : List Instr :=
  match B with
  | [] => []
  | b :: B => .cbce b k (some v) :: B.map fun b => .cbce b k none

/-- `decrypt_cbc(B, k, v)`: `CBCD.F B[0], k, v`, then `CBCD B[i], k` (R47). -/
def callDecryptCbc (B : List Byte) (k : Key32) (v : Byte) : List Instr :=
  match B with
  | [] => []
  | b :: B => .cbcd b k (some v) :: B.map fun b => .cbcd b k none

/-- `sbox(m)` (R48). -/
def callSbox (m : Byte) : List Instr := [.sbox m]

/-- `sbox_inverse(m)` (R48). -/
def callSboxInverse (m : Byte) : List Instr := [.sboxi m]

/-- `pbox(m)` (R48). -/
def callPbox (m : Byte) : List Instr := [.pbox m]

/-- `pbox_inverse(m)` (R48). -/
def callPboxInverse (m : Byte) : List Instr := [.pboxi m]

/-- Execute requests one after another, each to completion, in the order given (20_memory.md R33). -/
def runInstrs : List Instr → State → Host.Outcome State Fault Refusal
  | [], s => .next s
  | i :: is, s =>
    match exec i s with
    | .next t => runInstrs is t
    | .fault f => .fault f
    | .refused r => .refused r

/-- The responses that belong to the requests `p` picks out of a request sequence, in order: response
n is paired with request n (R25, HD7). -/
def responsesOf (p : Instr → Bool) (is : List Instr) (r : List Byte) : List Byte :=
  ((is.zip r).filter fun q => p q.1).map Prod.snd

end Sys2Proof.Machine
end

