-- ==== Sys2Proof/Machine/Run.lean ====
section
/-! DEFINITION. Runs: several steps one after another, the host's `Core.run` on this machine (spec
70_reset_and_hazards.md R108). -/

namespace Sys2Proof.Machine

/-- `n` steps, stopping at the first refusal. -/
def stepN : Nat → State → Host.Outcome State Fault Refusal
  | 0, s => .next s
  | n + 1, s =>
    match step s with
    | .next t => stepN n t
    | .fault f => .fault f
    | .refused r => .refused r

end Sys2Proof.Machine
end

