-- ==== Sys2Proof/Safety.lean ====
section
/-! DEFINITION. A safe run, in the terms claims use: what the host has presented keeps the duties
under which the core gives every request a meaning (spec 70_reset_and_hazards.md R103). -/

namespace Sys2Proof

/-- The host's actions keep HD1 (every request word is legal), HD2 (after a reset the first CBC request
has `first = 1`) and HD8 (no reset during a request). The argument says whether a CBC request has been
executed since the last reset, that is, whether `CV` holds a value (10_state.md R16). -/
def dutiesKept : Bool → List Machine.HostAction → Bool
  | _, [] => true
  | _, .reset :: as => dutiesKept false as
  | _, .resetDuring _ :: _ => false
  | chained, .request w :: as =>
    match decode w with
    | .error _ => false
    | .ok i =>
      (chained || !Machine.chainsFromCV i) && dutiesKept (chained || Machine.isCbc i) as

/-- What waits in front of the core keeps the duties. -/
abbrev SafeInputs (s : Machine.State) : Prop := dutiesKept s.cv.isSome s.inputs = true

/-- No action waiting in front of the core resets it during a request (HD8). -/
def NoResetDuring (s : Machine.State) : Prop :=
  ∀ w, Machine.HostAction.resetDuring w ∉ s.inputs

end Sys2Proof
end

