-- ==== Sys2Proof/Certificates/Slice0/Obligations.lean ====
section
/-! DEFINITION. The statements for the provers. Each docstring names the rules of spec/ it formalises.
Where a statement speaks of the fields `inputs`, `rsp` and `past` it rests on log entry 1 (the
interface's two streams are held in State). -/

open Sys2Proof Sys2Proof.Machine

/-! ### Requests: decoding, encoding, legality -/

/-- Words of 95_test_vectors.md section 2.8, written out from the layout of R36 and the codes of
R38, decode as R44 says: one for each operation, and a non-canonical one. -/
def Obligations.WrittenOutWordsDecode : Prop :=
  decode 0x20000000000073#56 = .ok (.sbox 0x73#8) ∧
  decode 0x31FFFFFFFFFF73#56 = .ok (.sboxi 0x73#8) ∧
  decode 0x400000000000C0#56 = .ok (.pbox 0xC0#8) ∧
  decode 0x50000000000003#56 = .ok (.pboxi 0x03#8) ∧
  decode 0x60982673510073#56 = .ok (.encb 0x73#8 0x98267351#32) ∧
  decode 0x709826735100D3#56 = .ok (.decb 0xD3#8 0x98267351#32) ∧
  decode 0x80982673510073#56 = .ok (.ecbe 0x73#8 0x98267351#32) ∧
  decode 0x909826735100D3#56 = .ok (.ecbd 0xD3#8 0x98267351#32) ∧
  decode 0xA1982673514268#56 = .ok (.cbce 0x68#8 0x98267351#32 (some 0x42#8)) ∧
  decode 0xA0982673514261#56 = .ok (.cbce 0x61#8 0x98267351#32 none) ∧
  decode 0xB1FFFFFFFFFFFF#56 = .ok (.cbcd 0xFF#8 0xFFFFFFFF#32 (some 0xFF#8))

/-- Decode and encode agree on every instruction, with every operand at every value (R44, R45). -/
def Obligations.DecodeOfEncodeIsIdentity : Prop :=
  ∀ i : Instr, decode (encode i) = .ok i

/-- The canonical word of what a legal word decodes to is that word with its ignored fields cleared
(R40, R46), the ignored fields written out for each group of codes; and a legal word disassembles to
the same text as its canonical form. -/
def Obligations.EncodeOfDecodeClearsIgnoredFields : Prop :=
  ∀ (w : ReqWord) (i : Instr), decode w = .ok i →
    ((w.extractLsb' 52 4).toNat ≤ 0x5 → encode i = w &&& 0xFE0000000000FF#56) ∧
    (0x6 ≤ (w.extractLsb' 52 4).toNat → (w.extractLsb' 52 4).toNat ≤ 0x9 →
      encode i = w &&& 0xFEFFFFFFFF00FF#56) ∧
    (0xA ≤ (w.extractLsb' 52 4).toNat → w.getLsbD 48 = false →
      encode i = w &&& 0xFFFFFFFFFF00FF#56) ∧
    (0xA ≤ (w.extractLsb' 52 4).toNat → w.getLsbD 48 = true → encode i = w) ∧
    disassemble w = disassemble (encode i)

/-- The decoder accepts exactly the words of the match and mask form of R42, and every encoded
instruction is a canonical word (R46). -/
def Obligations.DecoderAcceptsExactlyLegalWords : Prop :=
  (∀ w : ReqWord, (∃ i, decode w = .ok i) ↔ legalWord w = true) ∧
  (∀ i : Instr, canonicalWord (encode i) = true)

/-- R42: a request with reserved bits set, or else with one of the six unassigned codes, is refused
with no next state, whatever the state; every word the decoder accepts satisfies the match and mask
form; the all-zero and the all-ones words are illegal. The reason that a refusal carries, and that the
reserved bits are looked at before the code, is the model's reading of R44 (log entry 8, DEDUCED). -/
def Obligations.IllegalRequestIsRefused : Prop :=
  (∀ (s : State) (w : ReqWord) (rest : List HostAction), s.inputs = .request w :: rest →
    w.extractLsb' 49 3 ≠ 0#3 →
    step s = .refused (.illegalRequest (.reservedBits (w.extractLsb' 49 3)))) ∧
  (∀ (s : State) (w : ReqWord) (rest : List HostAction), s.inputs = .request w :: rest →
    w.extractLsb' 49 3 = 0#3 →
    w.extractLsb' 52 4 ∈ [0b0000#4, 0b0001#4, 0b1100#4, 0b1101#4, 0b1110#4, 0b1111#4] →
    step s = .refused (.illegalRequest (.opCode (w.extractLsb' 52 4)))) ∧
  (∀ (w : ReqWord) (i : Instr), decode w = .ok i →
    w &&& 0x0E000000000000#56 = 0#56 ∧
    0x2 ≤ (w.extractLsb' 52 4).toNat ∧ (w.extractLsb' 52 4).toNat ≤ 0xB) ∧
  (∀ i : Instr, decode 0x00000000000000#56 ≠ .ok i ∧ decode 0xFFFFFFFFFFFFFF#56 ≠ .ok i)

/-- R40: two legal words that agree on the fields their operation uses run alike; with `first = 1` a
CBC word uses every field; the legal words are exactly those with zero reserved bits and a code in
2..B; an encoded instruction has zero in every field it ignores. -/
def Obligations.IgnoredFieldsHaveNoEffect : Prop :=
  (∀ (w w' : ReqWord) (s : State) (rest : List HostAction),
    w.extractLsb' 49 7 = w'.extractLsb' 49 7 →
    w.extractLsb' 0 8 = w'.extractLsb' 0 8 →
    (0x6 ≤ (w.extractLsb' 52 4).toNat → w.extractLsb' 16 32 = w'.extractLsb' 16 32) →
    (0xA ≤ (w.extractLsb' 52 4).toNat → w.getLsbD 48 = w'.getLsbD 48) →
    (0xA ≤ (w.extractLsb' 52 4).toNat → w.getLsbD 48 = true →
      w.extractLsb' 8 8 = w'.extractLsb' 8 8) →
    step { s with inputs := .request w :: rest } =
      step { s with inputs := .request w' :: rest }) ∧
  (∀ (w w' : ReqWord) (i : Instr), 0xA ≤ (w.extractLsb' 52 4).toNat → w.getLsbD 48 = true →
    decode w = .ok i → decode w' = .ok i → w = w') ∧
  (∀ w : ReqWord, (∃ i, decode w = .ok i) ↔
    w.extractLsb' 49 3 = 0#3 ∧
      0x2 ≤ (w.extractLsb' 52 4).toNat ∧ (w.extractLsb' 52 4).toNat ≤ 0xB) ∧
  (∀ i : Instr, encode i &&& ignoredBits (encode i) = 0#56)

/-- R39: `op[3:1]`, which is `REQ[55:53]`, selects the unit, and `op[0]`, which is `REQ[52]`, the
direction; three unit values select nothing and are illegal with either direction. -/
def Obligations.OperationCodeSelectsUnitAndDirection : Prop :=
  (∀ (w : ReqWord) (i : Instr), decode w = .ok i →
    match i with
    | .sbox _ => w.extractLsb' 53 3 = 0b001#3 ∧ w.getLsbD 52 = false
    | .sboxi _ => w.extractLsb' 53 3 = 0b001#3 ∧ w.getLsbD 52 = true
    | .pbox _ => w.extractLsb' 53 3 = 0b010#3 ∧ w.getLsbD 52 = false
    | .pboxi _ => w.extractLsb' 53 3 = 0b010#3 ∧ w.getLsbD 52 = true
    | .encb _ _ => w.extractLsb' 53 3 = 0b011#3 ∧ w.getLsbD 52 = false
    | .decb _ _ => w.extractLsb' 53 3 = 0b011#3 ∧ w.getLsbD 52 = true
    | .ecbe _ _ => w.extractLsb' 53 3 = 0b100#3 ∧ w.getLsbD 52 = false
    | .ecbd _ _ => w.extractLsb' 53 3 = 0b100#3 ∧ w.getLsbD 52 = true
    | .cbce _ _ _ => w.extractLsb' 53 3 = 0b101#3 ∧ w.getLsbD 52 = false
    | .cbcd _ _ _ => w.extractLsb' 53 3 = 0b101#3 ∧ w.getLsbD 52 = true) ∧
  (∀ (w : ReqWord) (i : Instr),
    w.extractLsb' 53 3 = 0b000#3 ∨ w.extractLsb' 53 3 = 0b110#3 ∨ w.extractLsb' 53 3 = 0b111#3 →
    decode w ≠ .ok i)

/-- The textual notation (R45, R46; log entry 6): what the text of an instruction assembles to is
that instruction, and its canonical word disassembles to that text. -/
def Obligations.AssemblingTextGivesInstruction : Prop :=
  ∀ i : Instr, assembleLine (instrText i) = some [i] ∧
    disassemble (encode i) = some (instrText i)

/-! ### One step -/

/-- A step takes the oldest request the host has presented, decodes it and executes it (R25, R33,
R49; log entry 1); a step with nothing presented changes nothing (R107, log entry 2). -/
def Obligations.StepRunsDecodedRequest : Prop :=
  (∀ (s : State) (w : ReqWord) (rest : List HostAction) (i : Instr),
    s.inputs = .request w :: rest → decode w = .ok i →
    step s = exec i { s with inputs := rest }) ∧
  (∀ s : State, s.inputs = [] → step s = .next s)

/-- R49: a step on a request has one of three outcomes: a next state with one response byte more;
refusal because the word is illegal; refusal because a CBC request with `first = 0` found `CV`
holding no value. A request that is not refused runs its own operation, and a non-CBC one leaves
`CV` unchanged. -/
def Obligations.RequestHasThreeOutcomes : Prop :=
  ∀ (s : State) (w : ReqWord) (rest : List HostAction), s.inputs = .request w :: rest →
    (∀ why, decode w = .error why → step s = .refused (.illegalRequest why)) ∧
    (∀ i, decode w = .ok i → chainsFromCV i = true → s.cv = none →
      step s = .refused .chainFromNoValue) ∧
    (∀ i, decode w = .ok i → chainsFromCV i = false ∨ s.cv ≠ none →
      ∃ (b : Byte) (c : Option Byte), step s = exec i { s with inputs := rest } ∧
        step s = .next { s with cv := c, inputs := rest, rsp := s.rsp ++ [b] } ∧
        (isCbc i = false → c = s.cv))

/-- What any instruction changes and what it leaves (R15, R22, R25; log entry 1): exactly one
response byte is added at the end of the responses; the waiting actions, the earlier responses and
the free value's counter stay; `CV` stays unless the operation is a CBC one, and then it is the
response (CBCE) or the request's own din (CBCD). -/
def Obligations.ExecFrame : Prop :=
  ∀ (i : Instr) (s t : State), exec i s = .next t →
    ∃ b : Byte, t.rsp = s.rsp ++ [b] ∧ t.inputs = s.inputs ∧ t.past = s.past ∧
      t.freeIndex = s.freeIndex ∧
      t.cv = (match i with
        | .cbce _ _ _ => some b
        | .cbcd d _ _ => some d
        | _ => s.cv)

/-- The outcome of an instruction depends on its operands and `CV` only (R21, R22, R30): from two
states with equal `CV`, whatever their histories, the same byte is answered and the same `CV` is
left. -/
def Obligations.OutcomeDependsOnOperandsAndCV : Prop :=
  ∀ (i : Instr) (s s' : State), s.cv = s'.cv →
    (∀ t, exec i s = .next t →
      ∃ (b : Byte) (t' : State), exec i s' = .next t' ∧ t'.cv = t.cv ∧
        t.rsp = s.rsp ++ [b] ∧ t'.rsp = s'.rsp ++ [b]) ∧
    (∀ r, exec i s = .refused r → exec i s' = .refused r)

/-- R22: the eight non-CBC operations neither read nor write `CV`: the response is one byte for every
`CV`. The CBC operations with `first = 1` write it and do not read it. With `first = 0` and a value in
`CV` they write it and do read it: the response is an injective function of that value, so two values of
`CV` give two responses. In all three, the request is not remembered and no request reads a response: the
response and `CV` are the same whatever the rest of the state is, the responses before included. -/
def Obligations.WhoReadsAndWritesCV : Prop :=
  (∀ i : Instr, isCbc i = false → ∃ b : Byte,
    ∀ (s : State) (c : Option Byte) (before : List Byte) (earlier : List (List Byte)),
      exec i { s with cv := c, rsp := before, past := earlier } =
        .next { s with cv := c, rsp := before ++ [b], past := earlier }) ∧
  (∀ (d : Byte) (k : Key32) (v : Byte), ∃ b b' : Byte,
    ∀ (s : State) (c : Option Byte) (before : List Byte) (earlier : List (List Byte)),
      exec (.cbce d k (some v)) { s with cv := c, rsp := before, past := earlier } =
        .next { s with cv := some b, rsp := before ++ [b], past := earlier } ∧
      exec (.cbcd d k (some v)) { s with cv := c, rsp := before, past := earlier } =
        .next { s with cv := some d, rsp := before ++ [b'], past := earlier }) ∧
  (∀ (d : Byte) (k : Key32), ∃ enc dec : Byte → Byte,
    Function.Injective enc ∧ Function.Injective dec ∧
    ∀ (s : State) (c : Byte) (before : List Byte) (earlier : List (List Byte)),
      exec (.cbce d k none) { s with cv := some c, rsp := before, past := earlier } =
        .next { s with cv := some (enc c), rsp := before ++ [enc c], past := earlier } ∧
      exec (.cbcd d k none) { s with cv := some c, rsp := before, past := earlier } =
        .next { s with cv := some d, rsp := before ++ [dec c], past := earlier })

/-- An instruction is refused exactly where R79 and R16 say: a CBC request with `first = 0` while
`CV` holds no value; and then for that reason. -/
def Obligations.RefusedExactlyWhenNothingToChainFrom : Prop :=
  ∀ (i : Instr) (s : State),
    ((∃ r, exec i s = .refused r) ↔ (chainsFromCV i = true ∧ s.cv = none)) ∧
    (∀ r, exec i s = .refused r → r = .chainFromNoValue)

/-! ### The units -/

/-- `field(v, k, p)` is the mask-and-shift formula of R12 on naturals, at every width; and the eight
fields the core uses are the bits R12 names. -/
def Obligations.FieldIsMaskedShift : Prop :=
  (∀ (w : Nat) (v : BitVec w) (k p : Nat), 1 ≤ p →
    (field v k p).toNat = ((1 <<< k) - 1) &&& (v.toNat >>> (p - 1))) ∧
  (∀ (v : Byte) (key : Key32),
    v = field v 4 5 ++ field v 4 1 ∧ v = field v 2 7 ++ v.extractLsb' 2 4 ++ field v 2 1 ∧
    key = field key 8 25 ++ field key 8 17 ++ field key 8 9 ++ field key 8 1)

/-- R52 with R50: SBOX answers, from any state, the byte whose nibbles are `((x + 1) * 7) mod 16` of
the nibbles x of din, and changes nothing else; its canonical word; and every word of its code
decodes to it, whatever its ignored fields hold. -/
def Obligations.SboxSubstitutesEachNibble : Prop :=
  ∀ (d : Byte) (s : State), ∃ r : Byte,
    exec (.sbox d) s = .next { s with rsp := s.rsp ++ [r] } ∧
    (r.extractLsb' 4 4).toNat = ((d.extractLsb' 4 4).toNat + 1) * 7 % 16 ∧
    (r.extractLsb' 0 4).toNat = ((d.extractLsb' 0 4).toNat + 1) * 7 % 16 ∧
    encode (.sbox d) = 0x20#8 ++ 0x00000000#32 ++ 0x00#8 ++ d ∧
    ∀ (f : Bit) (k : Key32) (v : Byte),
      decode (0b0010#4 ++ 0b000#3 ++ f ++ k ++ v ++ d) = .ok (.sbox d)

/-- R53 with R51: SBOXI answers, from any state, the byte whose nibbles are the unique x with `((x +
1) * 7) mod 16` equal to the nibbles of din, not swapped, and changes nothing else; its canonical
word; and every word of its code decodes to it, whatever its ignored fields hold. -/
def Obligations.SboxiFindsUniquePreimages : Prop :=
  ∀ (d : Byte) (s : State), ∃ r : Byte,
    exec (.sboxi d) s = .next { s with rsp := s.rsp ++ [r] } ∧
    (∀ x < 16, (x + 1) * 7 % 16 = (d.extractLsb' 4 4).toNat ↔ x = (r.extractLsb' 4 4).toNat) ∧
    (∀ x < 16, (x + 1) * 7 % 16 = (d.extractLsb' 0 4).toNat ↔ x = (r.extractLsb' 0 4).toNat) ∧
    encode (.sboxi d) = 0x30#8 ++ 0x00000000#32 ++ 0x00#8 ++ d ∧
    ∀ (f : Bit) (k : Key32) (v : Byte),
      decode (0b0011#4 ++ 0b000#3 ++ f ++ k ++ v ++ d) = .ok (.sboxi d)

/-- R57: PBOX answers, from any state, din rotated left by 2, bit by bit, and changes nothing else;
its canonical word; and every word of its code decodes to it, whatever its ignored fields hold. -/
def Obligations.PboxRotatesLeftByTwo : Prop :=
  ∀ (d : Byte) (s : State), ∃ r : Byte,
    exec (.pbox d) s = .next { s with rsp := s.rsp ++ [r] } ∧
    (∀ i < 8, r.getLsbD ((i + 2) % 8) = d.getLsbD i) ∧
    encode (.pbox d) = 0x40#8 ++ 0x00000000#32 ++ 0x00#8 ++ d ∧
    ∀ (f : Bit) (k : Key32) (v : Byte),
      decode (0b0100#4 ++ 0b000#3 ++ f ++ k ++ v ++ d) = .ok (.pbox d)

/-- R58: PBOXI answers, from any state, din rotated right by 2, bit by bit, and changes nothing
else; its canonical word; and every word of its code decodes to it, whatever its ignored fields
hold. -/
def Obligations.PboxiRotatesRightByTwo : Prop :=
  ∀ (d : Byte) (s : State), ∃ r : Byte,
    exec (.pboxi d) s = .next { s with rsp := s.rsp ++ [r] } ∧
    (∀ i < 8, r.getLsbD ((i + 6) % 8) = d.getLsbD i) ∧
    encode (.pboxi d) = 0x50#8 ++ 0x00000000#32 ++ 0x00#8 ++ d ∧
    ∀ (f : Bit) (k : Key32) (v : Byte),
      decode (0b0101#4 ++ 0b000#3 ++ f ++ k ++ v ++ d) = .ok (.pboxi d)

/-- R65 with R62 and R63: ENCB under the key `{k1, k2, k3, k4}` answers, from any state, the
one-line formula of R63, and changes nothing else; its canonical word; and every word of its code
decodes to it, whatever its ignored fields hold. -/
def Obligations.EncbEncryptsOneBlock : Prop :=
  ∀ (m k1 k2 k3 k4 : Byte) (s : State),
    exec (.encb m (k1 ++ k2 ++ k3 ++ k4)) s =
      .next { s with rsp := s.rsp ++
        [sbox (pbox (sbox (pbox (sbox (m ^^^ k1)) ^^^ k2)) ^^^ k3) ^^^ k4] } ∧
    encode (.encb m (k1 ++ k2 ++ k3 ++ k4)) = 0x60#8 ++ k1 ++ k2 ++ k3 ++ k4 ++ 0x00#8 ++ m ∧
    ∀ (f : Bit) (v : Byte),
      decode (0b0110#4 ++ 0b000#3 ++ f ++ (k1 ++ k2 ++ k3 ++ k4) ++ v ++ m) =
        .ok (.encb m (k1 ++ k2 ++ k3 ++ k4))

/-- R66 with R62 and R64: DECB under the key `{k1, k2, k3, k4}` answers, from any state, the
one-line formula of R64, and changes nothing else; its canonical word; and every word of its code
decodes to it, whatever its ignored fields hold. -/
def Obligations.DecbDecryptsOneBlock : Prop :=
  ∀ (c k1 k2 k3 k4 : Byte) (s : State),
    exec (.decb c (k1 ++ k2 ++ k3 ++ k4)) s =
      .next { s with rsp := s.rsp ++
        [sboxi (pboxi (sboxi (pboxi (sboxi (c ^^^ k4) ^^^ k3)) ^^^ k2)) ^^^ k1] } ∧
    encode (.decb c (k1 ++ k2 ++ k3 ++ k4)) = 0x70#8 ++ k1 ++ k2 ++ k3 ++ k4 ++ 0x00#8 ++ c ∧
    ∀ (f : Bit) (v : Byte),
      decode (0b0111#4 ++ 0b000#3 ++ f ++ (k1 ++ k2 ++ k3 ++ k4) ++ v ++ c) =
        .ok (.decb c (k1 ++ k2 ++ k3 ++ k4))

/-- R72 with R63: an ECBE beat answers E of its din and key, from any state, and changes nothing
else, the same as ENCB; its canonical word; and every word of its code decodes to it, whatever its
ignored fields hold. -/
def Obligations.EcbeEncryptsOneBeat : Prop :=
  ∀ (m k1 k2 k3 k4 : Byte) (s : State),
    exec (.ecbe m (k1 ++ k2 ++ k3 ++ k4)) s =
      .next { s with rsp := s.rsp ++
        [sbox (pbox (sbox (pbox (sbox (m ^^^ k1)) ^^^ k2)) ^^^ k3) ^^^ k4] } ∧
    exec (.ecbe m (k1 ++ k2 ++ k3 ++ k4)) s = exec (.encb m (k1 ++ k2 ++ k3 ++ k4)) s ∧
    encode (.ecbe m (k1 ++ k2 ++ k3 ++ k4)) = 0x80#8 ++ k1 ++ k2 ++ k3 ++ k4 ++ 0x00#8 ++ m ∧
    ∀ (f : Bit) (v : Byte),
      decode (0b1000#4 ++ 0b000#3 ++ f ++ (k1 ++ k2 ++ k3 ++ k4) ++ v ++ m) =
        .ok (.ecbe m (k1 ++ k2 ++ k3 ++ k4))

/-- R73 with R64: an ECBD beat answers D of its din and key, from any state, and changes nothing
else, the same as DECB; its canonical word; and every word of its code decodes to it, whatever its
ignored fields hold. -/
def Obligations.EcbdDecryptsOneBeat : Prop :=
  ∀ (c k1 k2 k3 k4 : Byte) (s : State),
    exec (.ecbd c (k1 ++ k2 ++ k3 ++ k4)) s =
      .next { s with rsp := s.rsp ++
        [sboxi (pboxi (sboxi (pboxi (sboxi (c ^^^ k4) ^^^ k3)) ^^^ k2)) ^^^ k1] } ∧
    exec (.ecbd c (k1 ++ k2 ++ k3 ++ k4)) s = exec (.decb c (k1 ++ k2 ++ k3 ++ k4)) s ∧
    encode (.ecbd c (k1 ++ k2 ++ k3 ++ k4)) = 0x90#8 ++ k1 ++ k2 ++ k3 ++ k4 ++ 0x00#8 ++ c ∧
    ∀ (f : Bit) (v : Byte),
      decode (0b1001#4 ++ 0b000#3 ++ f ++ (k1 ++ k2 ++ k3 ++ k4) ++ v ++ c) =
        .ok (.ecbd c (k1 ++ k2 ++ k3 ++ k4))

/-- R80 with R79: a CBCE beat answers `E(din ^ cin, key)` and leaves that byte in `CV`, where cin is
the request's iv with `first = 1` (from any state) and what `CV` holds with `first = 0`; where `CV`
holds nothing that form is refused. Nothing else changes; the canonical words; and how every word of
its code decodes, the iv field being ignored with `first = 0`. -/
def Obligations.CbceEncryptsAndChains : Prop :=
  ∀ (d k1 k2 k3 k4 cin : Byte) (s : State) (y : Byte),
    y = sbox (pbox (sbox (pbox (sbox (d ^^^ cin ^^^ k1)) ^^^ k2)) ^^^ k3) ^^^ k4 →
    exec (.cbce d (k1 ++ k2 ++ k3 ++ k4) (some cin)) s =
      .next { s with cv := some y, rsp := s.rsp ++ [y] } ∧
    (s.cv = some cin → exec (.cbce d (k1 ++ k2 ++ k3 ++ k4) none) s =
      .next { s with cv := some y, rsp := s.rsp ++ [y] }) ∧
    (s.cv = none → exec (.cbce d (k1 ++ k2 ++ k3 ++ k4) none) s = .refused .chainFromNoValue) ∧
    encode (.cbce d (k1 ++ k2 ++ k3 ++ k4) (some cin)) =
      0xA1#8 ++ k1 ++ k2 ++ k3 ++ k4 ++ cin ++ d ∧
    encode (.cbce d (k1 ++ k2 ++ k3 ++ k4) none) =
      0xA0#8 ++ k1 ++ k2 ++ k3 ++ k4 ++ 0x00#8 ++ d ∧
    ∀ v : Byte,
      decode (0b1010#4 ++ 0b000#3 ++ 1#1 ++ (k1 ++ k2 ++ k3 ++ k4) ++ v ++ d) =
        .ok (.cbce d (k1 ++ k2 ++ k3 ++ k4) (some v)) ∧
      decode (0b1010#4 ++ 0b000#3 ++ 0#1 ++ (k1 ++ k2 ++ k3 ++ k4) ++ v ++ d) =
        .ok (.cbce d (k1 ++ k2 ++ k3 ++ k4) none)

/-- R81 with R79: a CBCD beat answers `D(din, key) ^ cin` and leaves its own din in `CV`, where cin
is the request's iv with `first = 1` (from any state) and what `CV` holds with `first = 0`; where
`CV` holds nothing that form is refused. Nothing else changes; the canonical words; and how every
word of its code decodes, the iv field being ignored with `first = 0`. -/
def Obligations.CbcdDecryptsAndChains : Prop :=
  ∀ (d k1 k2 k3 k4 cin : Byte) (s : State) (x : Byte),
    x = sboxi (pboxi (sboxi (pboxi (sboxi (d ^^^ k4) ^^^ k3)) ^^^ k2)) ^^^ k1 →
    exec (.cbcd d (k1 ++ k2 ++ k3 ++ k4) (some cin)) s =
      .next { s with cv := some d, rsp := s.rsp ++ [x ^^^ cin] } ∧
    (s.cv = some cin → exec (.cbcd d (k1 ++ k2 ++ k3 ++ k4) none) s =
      .next { s with cv := some d, rsp := s.rsp ++ [x ^^^ cin] }) ∧
    (s.cv = none → exec (.cbcd d (k1 ++ k2 ++ k3 ++ k4) none) s = .refused .chainFromNoValue) ∧
    encode (.cbcd d (k1 ++ k2 ++ k3 ++ k4) (some cin)) =
      0xB1#8 ++ k1 ++ k2 ++ k3 ++ k4 ++ cin ++ d ∧
    encode (.cbcd d (k1 ++ k2 ++ k3 ++ k4) none) =
      0xB0#8 ++ k1 ++ k2 ++ k3 ++ k4 ++ 0x00#8 ++ d ∧
    ∀ v : Byte,
      decode (0b1011#4 ++ 0b000#3 ++ 1#1 ++ (k1 ++ k2 ++ k3 ++ k4) ++ v ++ d) =
        .ok (.cbcd d (k1 ++ k2 ++ k3 ++ k4) (some v)) ∧
      decode (0b1011#4 ++ 0b000#3 ++ 0#1 ++ (k1 ++ k2 ++ k3 ++ k4) ++ v ++ d) =
        .ok (.cbcd d (k1 ++ k2 ++ k3 ++ k4) none)

/-! ### Properties of the units -/

/-- R54 (with the other order and the permutations, which the rule derives): SBOX and SBOXI are
inverse permutations of the byte values; at the interface, the response of SBOX m given to SBOXI, in
any later state, is answered by m. -/
def Obligations.SubstitutionRoundTrip : Prop :=
  (∀ m : Byte, sboxi (sbox m) = m ∧ sbox (sboxi m) = m) ∧
  Function.Bijective sbox ∧ Function.Bijective sboxi ∧
  (∀ (m r : Byte) (s t later : State), exec (.sbox m) s = .next t → t.rsp = s.rsp ++ [r] →
    exec (.sboxi r) later = .next { later with rsp := later.rsp ++ [m] })

/-- R59: PBOX and PBOXI undo each other, and at the interface too, whatever comes between. -/
def Obligations.PermutationRoundTrip : Prop :=
  (∀ m : Byte, pboxi (pbox m) = m ∧ pbox (pboxi m) = m) ∧
  (∀ (m r : Byte) (s t later : State), exec (.pbox m) s = .next t → t.rsp = s.rsp ++ [r] →
    exec (.pboxi r) later = .next { later with rsp := later.rsp ++ [m] })

/-- The laws derived in R60: PBOX and PBOXI are linear over exclusive-or; four PBOX are the
identity, three are PBOXI, two swap the nibbles; PBOX does not commute with SBOX. With what R57 and
R58 derive: the fixed points of both are four bytes, and PBOX keeps the number of one bits. -/
def Obligations.PermutationLaws : Prop :=
  (∀ a b : Byte, pbox (a ^^^ b) = pbox a ^^^ pbox b ∧ pboxi (a ^^^ b) = pboxi a ^^^ pboxi b) ∧
  pbox 0x00#8 = 0x00#8 ∧ pboxi 0x00#8 = 0x00#8 ∧
  (∀ v : Byte, pbox (pbox (pbox (pbox v))) = v ∧ pbox (pbox (pbox v)) = pboxi v ∧
    pbox (pbox v) = v.extractLsb' 0 4 ++ v.extractLsb' 4 4) ∧
  pbox (sbox 0x00#8) = 0xDD#8 ∧ sbox (pbox 0x00#8) = 0x77#8 ∧
  (∀ v : Byte, (pbox v = v ↔ v = 0x00#8 ∨ v = 0x55#8 ∨ v = 0xAA#8 ∨ v = 0xFF#8) ∧
    (pboxi v = v ↔ v = 0x00#8 ∨ v = 0x55#8 ∨ v = 0xAA#8 ∨ v = 0xFF#8) ∧
    (List.range 8).countP (pbox v).getLsbD = (List.range 8).countP v.getLsbD)

/-- The substitution is affine over exclusive-or (derived in R55; 90_conflicts.md C5): three low
bits of each nibble inverted and the top bit XORed with the lowest, and so for SBOXI with four bits
inverted; three inputs XORed give their outputs XORed; and no byte is a fixed point (derived in
R52). -/
def Obligations.SubstitutionIsAffine : Prop :=
  (∀ v : Byte, sbox v = v ^^^ 0x77#8 ^^^ ((v &&& 0x11#8) <<< 3) ∧
    sboxi v = v ^^^ 0xFF#8 ^^^ ((v &&& 0x11#8) <<< 3)) ∧
  (∀ a b c : Byte, sbox a ^^^ sbox b ^^^ sbox c = sbox (a ^^^ b ^^^ c)) ∧
  (∀ v : Byte, sbox v ≠ v)

/-- R67 (with the other order and the permutations, which the rule derives): for every key, E and D
are inverse permutations of the byte values; at the interface, the response of ENCB m, k given to
DECB with the same key, in any later state, is answered by m. -/
def Obligations.BlockRoundTrip : Prop :=
  (∀ (m : Byte) (k : Key32), blockD (blockE m k) k = m ∧ blockE (blockD m k) k = m) ∧
  (∀ k : Key32, Function.Bijective (fun m => blockE m k) ∧
    Function.Bijective (fun c => blockD c k)) ∧
  (∀ (m r : Byte) (k : Key32) (s t later : State),
    exec (.encb m k) s = .next t → t.rsp = s.rsp ++ [r] →
    exec (.decb r k) later = .next { later with rsp := later.rsp ++ [m] })

/-- The mirror derived in R64: when c is E(m, key) the intermediate values of decryption are those
of encryption in the opposite order. -/
def Obligations.DecryptionMirrorsEncryption : Prop :=
  ∀ (m : Byte) (k : Key32),
    (decTrace (blockE m k) k).u1 = (encTrace m k).t8 ∧
    (decTrace (blockE m k) k).u2 = (encTrace m k).t7 ∧
    (decTrace (blockE m k) k).u3 = (encTrace m k).t6 ∧
    (decTrace (blockE m k) k).u4 = (encTrace m k).t5 ∧
    (decTrace (blockE m k) k).u5 = (encTrace m k).t4 ∧
    (decTrace (blockE m k) k).u6 = (encTrace m k).t3 ∧
    (decTrace (blockE m k) k).u7 = (encTrace m k).t2 ∧
    (decTrace (blockE m k) k).u8 = (encTrace m k).t1 ∧
    (decTrace (blockE m k) k).u9 = m

/-- What R69 derives: E is affine over exclusive-or with a linear part that no key changes, given on
the eight single bits; so differences of ciphertexts do not depend on the key, two keys that agree
on `E(0x00, .)` give the same permutation, and all 256 values of `E(0x00, .)` occur, which makes 256
permutations. -/
def Obligations.BlockCipherIsAffine : Prop :=
  ∃ A : Byte → Byte,
    (∀ a b : Byte, A (a ^^^ b) = A a ^^^ A b) ∧ A 0x00#8 = 0x00#8 ∧
    A 0x01#8 = 0x10#8 ∧ A 0x02#8 = 0x20#8 ∧ A 0x04#8 = 0x42#8 ∧ A 0x08#8 = 0x80#8 ∧
    A 0x10#8 = 0x01#8 ∧ A 0x20#8 = 0x02#8 ∧ A 0x40#8 = 0x24#8 ∧ A 0x80#8 = 0x08#8 ∧
    (∀ (m : Byte) (k : Key32), blockE m k = A m ^^^ blockE 0x00#8 k) ∧
    (∀ (a b : Byte) (k : Key32), blockE a k ^^^ blockE b k = A (a ^^^ b)) ∧
    (∀ k k' : Key32, blockE 0x00#8 k = blockE 0x00#8 k' → ∀ m, blockE m k = blockE m k') ∧
    (∀ e : Byte, ∃ k : Key32, blockE 0x00#8 k = e) ∧
    blockE 0x00#8 0x00000000#32 = 0xFF#8 ∧ blockE 0x00#8 0x000000FF#32 = 0x00#8

/-! ### The chaining register and reset -/

/-- The life of `CV` (R16, R23): none after reset; a request that completes leaves a value exactly
when it is a CBC request or there was one before, so `CV` holds no value until the first CBC request
and always a value after it; only a reset takes it away; and a CBC request with `first = 0` executed
while there is none is refused. -/
def Obligations.ChainingRegisterLifetime : Prop :=
  State.reset.cv = none ∧
  (∀ (s t : State) (w : ReqWord) (rest : List HostAction) (i : Instr),
    s.inputs = .request w :: rest → decode w = .ok i → step s = .next t →
    (t.cv.isSome = true ↔ isCbc i = true ∨ s.cv.isSome = true)) ∧
  (∀ s t : State, step s = .next t → s.cv.isSome = true → t.cv = none →
    ∃ a rest, s.inputs = a :: rest ∧ (a = .reset ∨ ∃ w, a = .resetDuring w)) ∧
  (∀ (s : State) (w : ReqWord) (rest : List HostAction) (i : Instr),
    s.inputs = .request w :: rest → decode w = .ok i → chainsFromCV i = true → s.cv = none →
    step s = .refused .chainFromNoValue)

/-- R100 with R23: reset, in any state, leaves `CV` with no value, answers nothing (all the
responses seen so far stay what they were) and starts the numbering of responses again; the later
actions wait as before. Power-on leaves the same. That the free value's counter stays is the model's
choice (log entry 4, DESIGN CHOICE). -/
def Obligations.ResetEmptiesChainingRegister : Prop :=
  (∀ (s : State) (rest : List HostAction), s.inputs = .reset :: rest →
    ∃ t, step s = .next t ∧ t.cv = none ∧ t.rsp = [] ∧ t.inputs = rest ∧
      t.observed = s.observed ∧ t.freeIndex = s.freeIndex) ∧
  State.reset.cv = none ∧ State.reset.rsp = []

/-- R101: a reset during a legal request takes effect either after the request was executed
completely, its response delivered and `CV` written, or without the request being executed at all.
Which one is the free value of log entry 4, and the statement holds for both. A request that would
be refused (a CBC one with `first = 0` and nothing to chain from) is refused or not executed; an
illegal word is refused (R42). -/
def Obligations.ResetDuringRequestIsAtomic : Prop :=
  ∀ (s : State) (w : ReqWord) (rest : List HostAction), s.inputs = .resetDuring w :: rest →
  (∀ why, decode w = .error why → step s = .refused (.illegalRequest why)) ∧
  ∀ i : Instr, decode w = .ok i →
    (∃ t, step s = .next t ∧ t.cv = none ∧ t.rsp = [] ∧ t.inputs = rest ∧
      t.observed = s.observed) ∨
    (∃ u t, exec i { s with inputs := rest } = .next u ∧ step s = .next t ∧
      t.cv = none ∧ t.rsp = [] ∧ t.inputs = rest ∧ t.observed = u.observed) ∨
    (∃ r, exec i { s with inputs := rest } = .refused r ∧ step s = .refused r)

/-- A CBC beat with `first = 0` chains from whatever the last CBC request left (R103 HD3 and HD5,
R105): after any run whose last CBC request is x, with any other requests after it, `CV` holds x's
response if x is a CBCE and x's din if x is a CBCD. -/
def Obligations.ChainsFromLastCbcRequest : Prop :=
  ∀ (before after : List Instr) (x : Instr) (s t : State), isCbc x = true →
    (∀ y ∈ after, isCbc y = false) →
    runInstrs (before ++ x :: after) s = .next t →
    t.cv.isSome = true ∧
    t.cv = (match x with
      | .cbce _ _ _ => t.rsp[s.rsp.length + before.length]?
      | .cbcd d _ _ => some d
      | _ => none)

/-! ### Calls -/

/-- The one-request calls of R47 and R48, forward and then back, from any state: the responses are
the unit function's value and the byte given; nothing else changes. -/
def Obligations.OneRequestCallsRoundTrip : Prop :=
  ∀ (m : Byte) (k : Key32) (s : State),
    runInstrs (callEncryptBlock m k ++ callDecryptBlock (blockE m k) k) s =
      .next { s with rsp := s.rsp ++ [blockE m k, m] } ∧
    runInstrs (callSbox m ++ callSboxInverse (sbox m)) s =
      .next { s with rsp := s.rsp ++ [sbox m, m] } ∧
    runInstrs (callPbox m ++ callPboxInverse (pbox m)) s =
      .next { s with rsp := s.rsp ++ [pbox m, m] }

/-- R74: the ECB functions element by element, of the same length. -/
def Obligations.EcbElementwise : Prop :=
  ∀ (B : List Byte) (k : Key32),
    (encryptEcb B k).length = B.length ∧ (decryptEcb B k).length = B.length ∧
    (∀ (i : Nat) (b : Byte), B[i]? = some b →
      (encryptEcb B k)[i]? = some (blockE b k) ∧ (decryptEcb B k)[i]? = some (blockD b k))

/-- What R75 derives: the expansions of R47 compute the ECB functions from any state; and whatever
other requests are interleaved, the responses that belong to the call's beats are the function's
value and the rest of the run leaves the `CV` it leaves without them. -/
def Obligations.EcbCallsComputeEcb : Prop :=
  (∀ (B : List Byte) (k : Key32) (s : State),
    runInstrs (callEncryptEcb B k) s = .next { s with rsp := s.rsp ++ encryptEcb B k } ∧
    runInstrs (callDecryptEcb B k) s = .next { s with rsp := s.rsp ++ decryptEcb B k }) ∧
  (∀ (L : List Instr) (s t : State), runInstrs L s = .next t →
    ∃ r, t.rsp = s.rsp ++ r ∧ r.length = L.length ∧
      (∀ (i : Nat) (m : Byte) (k : Key32), L[i]? = some (.ecbe m k) →
        r[i]? = some (blockE m k)) ∧
      (∀ (i : Nat) (c : Byte) (k : Key32), L[i]? = some (.ecbd c k) →
        r[i]? = some (blockD c k)) ∧
      (∀ (p : Instr → Bool), (∀ x ∈ L, p x = true → isCbc x = false) →
        ∃ t', runInstrs (L.filter fun x => !p x) s = .next t' ∧ t'.cv = t.cv ∧
          t'.rsp = s.rsp ++ responsesOf (fun x => !p x) L r))

/-- R76: the ECB round trip for every buffer and key, as functions and through the interface. -/
def Obligations.EcbRoundTrip : Prop :=
  ∀ (B : List Byte) (k : Key32),
    decryptEcb (encryptEcb B k) k = B ∧
    ∀ s : State, runInstrs (callEncryptEcb B k ++ callDecryptEcb (encryptEcb B k) k) s =
      .next { s with rsp := s.rsp ++ encryptEcb B k ++ B }

/-- R82: the recurrence of encrypt_cbc. With cv[0] = v and cv[i+1] = C[i], that is cv = v followed
by C, `C[i] = E(B[i] ^ cv[i], k)`; same length as the input, and a buffer of length 0 gives one. -/
def Obligations.CbcEncryptRecurrence : Prop :=
  ∀ (B : List Byte) (k : Key32) (v : Byte),
    (encryptCbc B k v).length = B.length ∧
    (∀ (i : Nat) (b c : Byte), B[i]? = some b → (v :: encryptCbc B k v)[i]? = some c →
      (encryptCbc B k v)[i]? = some (blockE (b ^^^ c) k)) ∧
    encryptCbc [] k v = []

/-- R83: the recurrence of decrypt_cbc. With cv[0] = v and cv[i+1] = B[i], that is cv = v followed
by B, `P[i] = D(B[i], k) ^ cv[i]`; same length as the input, and a buffer of length 0 gives one. -/
def Obligations.CbcDecryptRecurrence : Prop :=
  ∀ (B : List Byte) (k : Key32) (v : Byte),
    (decryptCbc B k v).length = B.length ∧
    (∀ (i : Nat) (b c : Byte), B[i]? = some b → (v :: B)[i]? = some c →
      (decryptCbc B k v)[i]? = some (blockD b k ^^^ c)) ∧
    decryptCbc [] k v = []

/-- What R84 derives, encryption: from any starting state, for any run whose CBC requests are the
first n beats of the call on B (all of them when n is B's length) with any other requests
interleaved, the run completes, the responses that belong to the beats are the first n elements of
`encrypt_cbc(B, k, v)`, and after beat i (n = i + 1) `CV` holds C[i]. -/
def Obligations.CbcEncryptCallComputesEncryptCbc : Prop :=
  ∀ (B : List Byte) (k : Key32) (v : Byte) (L : List Instr) (n : Nat) (s : State),
    n ≤ B.length → L.filter isCbc = (callEncryptCbc B k v).take n →
    ∃ t r, runInstrs L s = .next t ∧ t.rsp = s.rsp ++ r ∧ r.length = L.length ∧
      responsesOf isCbc L r = (encryptCbc B k v).take n ∧
      (n = 0 → t.cv = s.cv) ∧
      (∀ i, n = i + 1 → t.cv = (encryptCbc B k v)[i]? ∧ t.cv.isSome = true)

/-- What R84 derives, decryption: the same with `decrypt_cbc(B, k, v)`, and after beat i `CV` holds
B[i]. -/
def Obligations.CbcDecryptCallComputesDecryptCbc : Prop :=
  ∀ (B : List Byte) (k : Key32) (v : Byte) (L : List Instr) (n : Nat) (s : State),
    n ≤ B.length → L.filter isCbc = (callDecryptCbc B k v).take n →
    ∃ t r, runInstrs L s = .next t ∧ t.rsp = s.rsp ++ r ∧ r.length = L.length ∧
      responsesOf isCbc L r = (decryptCbc B k v).take n ∧
      (n = 0 → t.cv = s.cv) ∧
      (∀ i, n = i + 1 → t.cv = B[i]? ∧ t.cv.isSome = true)

/-- The CBC round trip for every buffer, key and IV, as functions (R85) and through the interface, from
any state (by the calls of R47, with what R84 derives); and the ECB one as functions (R76). -/
def Obligations.CbcRoundTrip : Prop :=
  ∀ (B : List Byte) (k : Key32) (v : Byte),
    decryptCbc (encryptCbc B k v) k v = B ∧ decryptEcb (encryptEcb B k) k = B ∧
    ∀ s : State, ∃ t,
      runInstrs (callEncryptCbc B k v ++ callDecryptCbc (encryptCbc B k v) k v) s = .next t ∧
      t.rsp = s.rsp ++ encryptCbc B k v ++ B

/-- A wrong IV on decryption damages the first byte only (95_test_vectors.md section 2.7, from R83),
by the exclusive-or of the two IVs. -/
def Obligations.WrongIvDamagesFirstByteOnly : Prop :=
  ∀ (b : Byte) (B : List Byte) (k : Key32) (v v' : Byte),
    (decryptCbc (b :: B) k v).tail = (decryptCbc (b :: B) k v').tail ∧
    (decryptCbc (b :: B) k v).head? =
      (decryptCbc (b :: B) k v').head?.map fun p => p ^^^ v ^^^ v'

/-- Nothing before a call can change its responses (R28): a run whose first CBC request has `first =
1` completes from any two states with the same responses. -/
def Obligations.CallIsIndependentOfHistory : Prop :=
  ∀ (L : List Instr) (s s' : State),
    (∀ x, L.find? isCbc = some x → chainsFromCV x = false) →
    ∃ t t' r, runInstrs L s = .next t ∧ runInstrs L s' = .next t' ∧
      t.rsp = s.rsp ++ r ∧ t'.rsp = s'.rsp ++ r ∧ r.length = L.length

/-! ### Runs -/

/-- Requests are executed one at a time, each to completion, in exactly the order presented, and
responses leave in the same order (R25, R33; log entry 1): the machine driven by its request stream,
whatever waits behind, does what executing the instructions one after another does. -/
def Obligations.RequestStreamRunsInOrder : Prop :=
  ∀ (L : List Instr) (s : State) (rest : List HostAction),
    stepN L.length
        { s with inputs := (L.map fun i => HostAction.request (encode i)) ++ rest } =
      runInstrs L { s with inputs := rest }

/-- Every request produces exactly one response (R25): a run over n presented requests that
completes has added n responses behind the old ones and taken exactly those n requests. -/
def Obligations.OneResponsePerRequest : Prop :=
  ∀ (ws : List ReqWord) (s t : State) (rest : List HostAction),
    s.inputs = ws.map HostAction.request ++ rest →
    stepN ws.length s = .next t →
    ∃ r, t.rsp = s.rsp ++ r ∧ r.length = ws.length ∧ t.inputs = rest ∧ t.past = s.past

/-- Duties HD1, HD2 and HD8 (R103) are an invariant under which the core never refuses: a step from
a state whose waiting actions keep them completes, and what waits then keeps them again. -/
def Obligations.StepKeepsDuties : Prop :=
  ∀ s : State, SafeInputs s → ∃ t, step s = .next t ∧ SafeInputs t

/-- The duties hold of the state after reset, and of it with any one legal request in front that is
not a CBC one with `first = 0` (R102). -/
def Obligations.DutiesHoldAtReset : Prop :=
  SafeInputs State.reset ∧
  (∀ i : Instr, chainsFromCV i = false → SafeInputs (State.reset.present [i]))

/-- A run under the duties is never refused, however long (R103). -/
def Obligations.DutifulRunIsNeverRefused : Prop :=
  ∀ (n : Nat) (s : State), SafeInputs s →
    ∃ t, stepN n s = .next t ∧ SafeInputs t

/-- A host that breaks HD1 or HD2 is refused before its actions are used up (R103: a model refuses).
-/
def Obligations.BrokenDutyIsRefused : Prop :=
  ∀ s : State, NoResetDuring s → ¬ SafeInputs s →
    ∃ r, stepN s.inputs.length s = .refused r ∧
      (r = .chainFromNoValue ∨ ∃ why, r = .illegalRequest why)
end

