-- ==== Sys2Proof/Laws/State.lean ====
section
/-! SUPPORT. One lemma per field per update of the state, so that no proof unfolds a record update. -/

namespace Sys2Proof.Machine.State

variable (s : State)

@[simp] theorem respond_cv (b : Byte) : (s.respond b).cv = s.cv := rfl
@[simp] theorem respond_inputs (b : Byte) : (s.respond b).inputs = s.inputs := rfl
@[simp] theorem respond_rsp (b : Byte) : (s.respond b).rsp = s.rsp ++ [b] := rfl
@[simp] theorem respond_past (b : Byte) : (s.respond b).past = s.past := rfl
@[simp] theorem respond_freeIndex (b : Byte) : (s.respond b).freeIndex = s.freeIndex := rfl

@[simp] theorem writeCV_cv (v : Byte) : (s.writeCV v).cv = some v := rfl
@[simp] theorem writeCV_inputs (v : Byte) : (s.writeCV v).inputs = s.inputs := rfl
@[simp] theorem writeCV_rsp (v : Byte) : (s.writeCV v).rsp = s.rsp := rfl
@[simp] theorem writeCV_past (v : Byte) : (s.writeCV v).past = s.past := rfl
@[simp] theorem writeCV_freeIndex (v : Byte) : (s.writeCV v).freeIndex = s.freeIndex := rfl

@[simp] theorem applyReset_cv : (s.applyReset).cv = none := rfl
@[simp] theorem applyReset_inputs : (s.applyReset).inputs = s.inputs := rfl
@[simp] theorem applyReset_rsp : (s.applyReset).rsp = [] := rfl
@[simp] theorem applyReset_past : (s.applyReset).past = s.past ++ [s.rsp] := rfl
@[simp] theorem applyReset_freeIndex : (s.applyReset).freeIndex = s.freeIndex := rfl

@[simp] theorem nextFree_cv : (s.nextFree).cv = s.cv := rfl
@[simp] theorem nextFree_inputs : (s.nextFree).inputs = s.inputs := rfl
@[simp] theorem nextFree_rsp : (s.nextFree).rsp = s.rsp := rfl
@[simp] theorem nextFree_past : (s.nextFree).past = s.past := rfl
@[simp] theorem nextFree_freeIndex : (s.nextFree).freeIndex = s.freeIndex + 1 := rfl

@[simp] theorem presentNext_cv (w : ReqWord) : (s.presentNext w).cv = s.cv := rfl
@[simp] theorem presentNext_inputs (w : ReqWord) : (s.presentNext w).inputs = .request w :: s.inputs := rfl
@[simp] theorem presentNext_rsp (w : ReqWord) : (s.presentNext w).rsp = s.rsp := rfl
@[simp] theorem presentNext_past (w : ReqWord) : (s.presentNext w).past = s.past := rfl
@[simp] theorem presentNext_freeIndex (w : ReqWord) : (s.presentNext w).freeIndex = s.freeIndex := rfl

@[simp] theorem present_cv (is : List Instr) : (s.present is).cv = s.cv := rfl
@[simp] theorem present_inputs (is : List Instr) : (s.present is).inputs = s.inputs ++ is.map fun i => .request (encode i) := rfl
@[simp] theorem present_rsp (is : List Instr) : (s.present is).rsp = s.rsp := rfl
@[simp] theorem present_past (is : List Instr) : (s.present is).past = s.past := rfl
@[simp] theorem present_freeIndex (is : List Instr) : (s.present is).freeIndex = s.freeIndex := rfl

/-- What an observer has seen grows by exactly the response delivered. -/
theorem observed_respond (b : Byte) : (s.respond b).observed = s.observed ++ [b] := by
  simp [observed]

/-- Reset takes back nothing an observer has seen. -/
theorem observed_applyReset : s.applyReset.observed = s.observed := by
  simp [observed]

end Sys2Proof.Machine.State
end

