-- ==== Sys2Proof/Laws/Ops.lean ====
section
/-! SUPPORT. What each shared operation can do, said once. -/

namespace Sys2Proof.Machine

/-- With an iv operand the chaining input is that iv: `CV` is not read. -/
@[simp] theorem chainInput_some (v : Byte) (s : State) : chainInput (some v) s = some v := rfl

/-- Without one it is what `CV` holds. -/
@[simp] theorem chainInput_none (s : State) : chainInput none s = s.cv := rfl

/-- The chaining input fails in one case only. -/
theorem chainInput_eq_none_iff (iv : Option Byte) (s : State) :
    chainInput iv s = none ↔ iv = none ∧ s.cv = none := by
  cases iv <;> simp

/-- The chaining input reads no field of the state but `CV`. -/
theorem chainInput_congr (iv : Option Byte) {s s' : State} (h : s.cv = s'.cv) :
    chainInput iv s = chainInput iv s' := by
  cases iv <;> simp [h]

/-- All a CBCE beat can do when it completes. -/
theorem execCbce_next_iff {d : Byte} {k : Key32} {iv : Option Byte} {s t : State} :
    execCbce d k iv s = .next t ↔
      ∃ cin, chainInput iv s = some cin ∧
        t = (s.respond (blockE (d ^^^ cin) k)).writeCV (blockE (d ^^^ cin) k) := by
  unfold execCbce
  cases chainInput iv s <;> simp [eq_comm]

/-- All a CBCD beat can do when it completes. -/
theorem execCbcd_next_iff {d : Byte} {k : Key32} {iv : Option Byte} {s t : State} :
    execCbcd d k iv s = .next t ↔
      ∃ cin, chainInput iv s = some cin ∧
        t = (s.respond (blockD d k ^^^ cin)).writeCV d := by
  unfold execCbcd
  cases chainInput iv s <;> simp [eq_comm]

/-- Taking an action: nothing where none waits, else the oldest one. -/
theorem takeAction_eq_some_iff {s t : State} {a : HostAction} :
    s.takeAction = some (a, t) ↔
      ∃ rest, s.inputs = a :: rest ∧ t = { s with inputs := rest } := by
  unfold State.takeAction
  cases h : s.inputs with
  | nil => simp
  | cons b bs =>
    simp only [Option.some.injEq, Prod.mk.injEq, List.cons.injEq]
    constructor
    · rintro ⟨rfl, rfl⟩; exact ⟨bs, ⟨rfl, rfl⟩, rfl⟩
    · rintro ⟨rest, ⟨rfl, rfl⟩, rfl⟩; exact ⟨rfl, rfl⟩

/-- A step with an action waiting does that action in the state without it. -/
theorem step_of_inputs_cons {s : State} {a : HostAction} {rest : List HostAction}
    (h : s.inputs = a :: rest) : step s = doAction a { s with inputs := rest } := by
  simp [step, State.takeAction, h]

/-- Truncation to a byte, as a number. -/
@[simp] theorem trunc8_toNat (a : Nat) : (trunc8 a).toNat = a % 256 := by
  simp [trunc8]

/-- A bit of an extracted field. -/
theorem field_getLsbD {w : Nat} (v : BitVec w) (k p i : Nat) :
    (field v k p).getLsbD i = (decide (i < k) && v.getLsbD (p - 1 + i)) := by
  simp [field, BitVec.getLsbD_extractLsb']

end Sys2Proof.Machine
end

