-- ==== Sys2Proof/Laws/Exec.lean ====
section
/-! SUPPORT. What executing one instruction can do, said once. -/

namespace Sys2Proof.Machine

/-- Every instruction either is refused, a CBC beat with `first = 0` that finds `CV` without a value, or
completes with one response byte. -/
theorem exec_cases (i : Instr) (s : State) :
    (chainsFromCV i = true ∧ s.cv = none ∧ exec i s = .refused .chainFromNoValue) ∨
    (¬ (chainsFromCV i = true ∧ s.cv = none) ∧ ∃ b : Byte, exec i s = .next { s with
      cv := (match i with
        | .cbce _ _ _ => some b
        | .cbcd d _ _ => some d
        | _ => s.cv),
      rsp := s.rsp ++ [b] }) := by
  rcases i with d | d | d | d | ⟨d, k⟩ | ⟨d, k⟩ | ⟨d, k⟩ | ⟨d, k⟩ | ⟨d, k, iv⟩ | ⟨d, k, iv⟩
  all_goals first
    | exact .inr ⟨by simp [chainsFromCV], _, rfl⟩
    | (cases iv with
       | some v => exact .inr ⟨by simp [chainsFromCV], _, rfl⟩
       | none =>
         cases h : s.cv with
         | none => exact .inl ⟨rfl, rfl, by simp [exec, execCbce, execCbcd, h]⟩
         | some c =>
           exact .inr ⟨by simp, _, by simp only [exec, execCbce, execCbcd, chainInput_none, h]; rfl⟩)

/-- No instruction faults: the core has no exceptions (R88). -/
theorem exec_ne_fault (i : Instr) (s : State) (f : Fault) : exec i s ≠ .fault f := nomatch f

end Sys2Proof.Machine
end

