-- ==== Sys2Proof/Laws/Request.lean ====
section
/-! SUPPORT. The field layout of the request word, read and written, and what the decoder does. -/

namespace Sys2Proof

/-- Reading the fields of a word written from fields gives them back. -/
theorem Req.ofWord_toWord (r : Req) : Req.ofWord r.toWord = r := by
  obtain ⟨op, res, first, key, iv, din⟩ := r
  simp only [Req.ofWord, Req.toWord, Req.mk.injEq]
  refine ⟨?_, ?_, ?_, ?_, ?_, ?_⟩ <;>
    (apply BitVec.eq_of_getLsbD_eq; intro i hi
     simp only [BitVec.getLsbD_extractLsb', BitVec.getLsbD_append, hi, decide_true, Bool.true_and]
     repeat' split
     all_goals first
       | omega
       | (congr 1; omega))

/-- Writing the fields read from a word gives the word back: no bit is dropped. -/
theorem Req.toWord_ofWord (w : ReqWord) : (Req.ofWord w).toWord = w := by
  apply BitVec.eq_of_getLsbD_eq
  intro i hi
  simp only [Req.ofWord, Req.toWord, BitVec.getLsbD_append, BitVec.getLsbD_extractLsb']
  repeat' split
  all_goals (rw [decide_eq_true (by omega), Bool.true_and]; congr 1; omega)

/-- A word is its six fields: two words with equal fields are equal. -/
theorem Req.ofWord_injective : Function.Injective Req.ofWord :=
  Function.LeftInverse.injective Req.toWord_ofWord

/-- Everything the decoder can do: refuse for reserved bits, else read the operation. -/
theorem decode_eq (w : ReqWord) :
    decode w = if (Req.ofWord w).reserved = 0#3 then (Req.ofWord w).operation
      else .error (.reservedBits (Req.ofWord w).reserved) := rfl

/-- What a word that decodes looks like: reserved bits zero, and its operation. -/
theorem decode_eq_ok {w : ReqWord} {i : Instr} (h : decode w = .ok i) :
    (Req.ofWord w).reserved = 0#3 ∧ (Req.ofWord w).operation = .ok i := by
  rw [decode_eq] at h
  split at h
  · exact ⟨by assumption, h⟩
  · cases h

/-- The operation of a request, by its code. -/
theorem Req.operation_eq_ok {r : Req} {i : Instr} (h : r.operation = .ok i) :
    (r.op = 0x2#4 ∧ i = .sbox r.din) ∨ (r.op = 0x3#4 ∧ i = .sboxi r.din) ∨
    (r.op = 0x4#4 ∧ i = .pbox r.din) ∨ (r.op = 0x5#4 ∧ i = .pboxi r.din) ∨
    (r.op = 0x6#4 ∧ i = .encb r.din r.key) ∨ (r.op = 0x7#4 ∧ i = .decb r.din r.key) ∨
    (r.op = 0x8#4 ∧ i = .ecbe r.din r.key) ∨ (r.op = 0x9#4 ∧ i = .ecbd r.din r.key) ∨
    (r.op = 0xA#4 ∧ i = .cbce r.din r.key r.ivOperand) ∨
    (r.op = 0xB#4 ∧ i = .cbcd r.din r.key r.ivOperand) := by
  obtain ⟨op, res, first, key, iv, din⟩ := r
  simp only [Req.operation] at h
  split at h <;> first
    | (cases h; done)
    | (injection h with h
       subst h
       rename_i hop
       have e : op = BitVec.ofNat 4 op.toNat := by simp
       rw [hop] at e
       simp [e])

/-- A code that is no operation's. -/
theorem Req.operation_eq_error {r : Req} {e : Illegal} (h : r.operation = .error e) :
    e = .opCode r.op ∧ (r.op.toNat < 2 ∨ 0xB < r.op.toNat) := by
  obtain ⟨op, res, first, key, iv, din⟩ := r
  simp only [Req.operation] at h
  split at h <;> first
    | (cases h; done)
    | (injection h with h
       subst h
       refine ⟨rfl, ?_⟩
       simp only [imp_false] at *
       omega)

/-- The first-beat flag is bit 48 of the word. -/
theorem Req.first_eq_one_iff (w : ReqWord) :
    (Req.ofWord w).first = 1#1 ↔ w.getLsbD 48 = true := by
  rw [← BitVec.toNat_inj]
  simp [Req.ofWord, BitVec.getLsbD, Nat.testBit, Nat.shiftRight_eq_div_pow, Nat.and_comm 1]

/-- The mask form of the reserved-bits check (R42). -/
theorem reservedClear_iff (w : ReqWord) :
    reservedClear w = true ↔ (Req.ofWord w).reserved = 0#3 := by
  simp only [reservedClear, beq_iff_eq, Req.ofWord]
  constructor
  · intro h
    apply BitVec.eq_of_getLsbD_eq
    intro i hi
    have hb := congrArg (fun x => x.getLsbD (49 + i)) h
    simp only [BitVec.getLsbD_and] at hb
    rw [BitVec.getLsbD_extractLsb']
    interval_cases i <;> simpa using hb
  · intro h
    apply BitVec.eq_of_getLsbD_eq
    intro i hi
    have h0 := congrArg (fun x => x.getLsbD 0) h
    have h1 := congrArg (fun x => x.getLsbD 1) h
    have h2 := congrArg (fun x => x.getLsbD 2) h
    simp at h0 h1 h2
    interval_cases i <;> simp [h0, h1, h2]

/-- Shifting the word down leaves its operation code. -/
theorem shift_toNat_eq_op (w : ReqWord) : (w >>> 52).toNat = (Req.ofWord w).op.toNat := by
  have h := w.isLt
  simp [Req.ofWord, BitVec.toNat_ushiftRight, Nat.shiftRight_eq_div_pow]
  omega

/-- A canonical word written out byte by byte, for any code and direction. -/
theorem Req.toWord_bytes (op : BitVec 4) (f : Bit) (b k1 k2 k3 k4 v d : Byte)
    (hb : (op ++ 0#3 ++ f : BitVec 8) = b) :
    (Req.mk op 0 f (k1 ++ k2 ++ k3 ++ k4) v d).toWord = b ++ k1 ++ k2 ++ k3 ++ k4 ++ v ++ d := by
  subst hb
  apply BitVec.eq_of_getLsbD_eq
  intro i hi
  simp only [Req.toWord, BitVec.getLsbD_append]
  repeat' split
  all_goals first
    | omega
    | congr 1

/-- A word written out field by field, with its reserved bits zero, is read by its operation code. -/
theorem decode_fields (op : BitVec 4) (f : Bit) (k : Key32) (v d : Byte) :
    decode (op ++ 0b000#3 ++ f ++ k ++ v ++ d) = (Req.mk op 0 f k v d).operation := by
  have h : decode (Req.mk op 0 f k v d).toWord = (Req.mk op 0 f k v d).operation := by
    rw [decode_eq, Req.ofWord_toWord]
    rfl
  exact h

end Sys2Proof
end

