-- ==== Sys2Proof/Laws/PerInstr.lean ====
section
/-! SUPPORT. Statements made for every instruction, one lemma per constructor. -/

namespace Sys2Proof.Laws.Encoded

/-- The fields of an instruction's word are its canonical fields, its reserved bits are zero and its
operation code is an assigned one (R38, R41, R46). -/
def Statement (i : Instr) : Prop :=
  Req.ofWord (encode i) = i.toReq ∧ i.toReq.reserved = 0#3 ∧
    2 ≤ i.toReq.op.toNat ∧ i.toReq.op.toNat ≤ 0xB

theorem sbox (d : Byte) : Statement (.sbox d) := by simp [Statement, encode, Instr.toReq, Req.ofWord_toWord]
theorem sboxi (d : Byte) : Statement (.sboxi d) := by simp [Statement, encode, Instr.toReq, Req.ofWord_toWord]
theorem pbox (d : Byte) : Statement (.pbox d) := by simp [Statement, encode, Instr.toReq, Req.ofWord_toWord]
theorem pboxi (d : Byte) : Statement (.pboxi d) := by simp [Statement, encode, Instr.toReq, Req.ofWord_toWord]
theorem encb (d : Byte) (k : Key32) : Statement (.encb d k) := by
  simp [Statement, encode, Instr.toReq, Req.ofWord_toWord]
theorem decb (d : Byte) (k : Key32) : Statement (.decb d k) := by
  simp [Statement, encode, Instr.toReq, Req.ofWord_toWord]
theorem ecbe (d : Byte) (k : Key32) : Statement (.ecbe d k) := by
  simp [Statement, encode, Instr.toReq, Req.ofWord_toWord]
theorem ecbd (d : Byte) (k : Key32) : Statement (.ecbd d k) := by
  simp [Statement, encode, Instr.toReq, Req.ofWord_toWord]
theorem cbce (d : Byte) (k : Key32) (iv : Option Byte) : Statement (.cbce d k iv) := by
  cases iv <;> simp [Statement, encode, Instr.toReq, Req.ofWord_toWord]
theorem cbcd (d : Byte) (k : Key32) (iv : Option Byte) : Statement (.cbcd d k iv) := by
  cases iv <;> simp [Statement, encode, Instr.toReq, Req.ofWord_toWord]

end Sys2Proof.Laws.Encoded
end

