-- ==== Sys2Proof/Laws/Run.lean ====
section
/-! SUPPORT. Runs of steps and of instructions. -/

namespace Sys2Proof.Machine

/-- One step of any machine's run, then the rest. -/
theorem coreRun_succ (M : Host.Core) (n : Nat) (s : M.State) :
    M.run (n + 1) s =
      match M.step s with
      | .next t => M.run n t
      | .fault f => .fault f
      | .refused r => .refused r := by
  cases h : M.step s <;> simp [Host.Core.run, h]

/-- `stepN` is the host's run of this machine. -/
theorem core_run_eq_stepN (n : Nat) (s : State) :
    (Host.Core.run Sys2Proof.core n s : Host.Outcome State Fault Refusal) = stepN n s := by
  induction n generalizing s with
  | zero => rfl
  | succ n ih =>
    refine (coreRun_succ Sys2Proof.core n s).trans ?_
    have h : Sys2Proof.core.step s = step s := rfl
    rw [h, stepN]
    cases step s with
    | next t => exact ih t
    | fault f => rfl
    | refused r => rfl

/-- One step, then the rest. -/
theorem stepN_succ_of_next {n : Nat} {s t : State} (h : step s = .next t) :
    stepN (n + 1) s = stepN n t := by
  simp [stepN, h]

/-- A run that is refused at its first step. -/
theorem stepN_succ_of_refused {n : Nat} {s : State} {r : Refusal} (h : step s = .refused r) :
    stepN (n + 1) s = .refused r := by
  simp [stepN, h]

/-- Executing two sequences of requests, one after the other. -/
theorem runInstrs_append (is js : List Instr) (s : State) :
    runInstrs (is ++ js) s =
      match runInstrs is s with
      | .next t => runInstrs js t
      | .fault f => .fault f
      | .refused r => .refused r := by
  induction is generalizing s with
  | nil => rfl
  | cons i is ih =>
    simp only [List.cons_append, runInstrs]
    cases exec i s <;> simp [ih]

/-- A sequence of requests that completes has completed its first one. -/
theorem runInstrs_cons_next_iff {i : Instr} {is : List Instr} {s t : State} :
    runInstrs (i :: is) s = .next t ↔ ∃ u, exec i s = .next u ∧ runInstrs is u = .next t := by
  simp only [runInstrs]
  cases exec i s <;> simp

end Sys2Proof.Machine
end

