-- ==== Sys2Proof/Laws/Units.lean ====
section
/-! SUPPORT. The nibble functions and the two byte-level building blocks. -/

namespace Sys2Proof.Machine

/-- The search of R51 undoes the formula of R50. -/
@[simp] theorem s4i_s4 : ∀ x : Nibble, s4i (s4 x) = x := by decide

/-- The formula of R50 undoes the search of R51. -/
@[simp] theorem s4_s4i : ∀ y : Nibble, s4 (s4i y) = y := by decide

/-- The closed form of the inverse (R51). -/
theorem s4i_closed_form : ∀ y : Nibble, s4i y = BitVec.ofNat 4 ((7 * y.toNat + 15) % 16) := by
  decide

/-- The exclusive-or form of the substitution (R55). -/
theorem s4_xor_form : ∀ x : Nibble, s4 x = x ^^^ 7#4 ^^^ ((x &&& 1#4) <<< 3) := by decide

/-- The exclusive-or form of the inverse (R55). -/
theorem s4i_xor_form : ∀ y : Nibble, s4i y = y ^^^ 15#4 ^^^ ((y &&& 1#4) <<< 3) := by decide

/-- Recombination is concatenation: `{f(v[7:4]), f(v[3:0])}` (R52). -/
theorem onNibbles_eq_append (f : Nibble → Nibble) (v : Byte) :
    onNibbles f v = f (v.extractLsb' 4 4) ++ f (v.extractLsb' 0 4) := by
  apply BitVec.eq_of_getLsbD_eq
  intro i hi
  simp only [onNibbles, field, BitVec.getLsbD_or, BitVec.getLsbD_shiftLeft,
    BitVec.getLsbD_setWidth, BitVec.getLsbD_append, hi, decide_true, Bool.true_and]
  by_cases h : i < 4
  · simp [h]
  · have h4 : 4 ≤ i := by omega
    simp [h, show i - 4 < 8 by omega, BitVec.getLsbD_of_ge _ i h4]

/-- The high nibble of a substituted byte comes from the high nibble alone. -/
theorem onNibbles_high (f : Nibble → Nibble) (v : Byte) :
    (onNibbles f v).extractLsb' 4 4 = f (v.extractLsb' 4 4) := by
  rw [onNibbles_eq_append]
  apply BitVec.eq_of_getLsbD_eq
  intro i hi
  rw [BitVec.getLsbD_extractLsb', BitVec.getLsbD_append, if_neg (by omega)]
  simp [hi]

/-- The low nibble of a substituted byte comes from the low nibble alone. -/
theorem onNibbles_low (f : Nibble → Nibble) (v : Byte) :
    (onNibbles f v).extractLsb' 0 4 = f (v.extractLsb' 0 4) := by
  rw [onNibbles_eq_append]
  apply BitVec.eq_of_getLsbD_eq
  intro i hi
  rw [BitVec.getLsbD_extractLsb', BitVec.getLsbD_append, if_pos (by omega)]
  simp [hi]

/-- PBOX moves bit i to bit (i + 2) mod 8 (R57). -/
theorem pbox_eq_append (v : Byte) : pbox v = v.extractLsb' 0 6 ++ v.extractLsb' 6 2 := by
  revert v; decide

/-- PBOXI moves bit i to bit (i + 6) mod 8 (R58). -/
theorem pboxi_eq_append (v : Byte) : pboxi v = v.extractLsb' 0 2 ++ v.extractLsb' 2 6 := by
  revert v; decide

/-- The subkeys of a key given by its four bytes (R62). -/
theorem subkeys_append (k1 k2 k3 k4 : Byte) :
    subkey1 (k1 ++ k2 ++ k3 ++ k4) = k1 ∧ subkey2 (k1 ++ k2 ++ k3 ++ k4) = k2 ∧
      subkey3 (k1 ++ k2 ++ k3 ++ k4) = k3 ∧ subkey4 (k1 ++ k2 ++ k3 ++ k4) = k4 := by
  refine ⟨?_, ?_, ?_, ?_⟩ <;>
    (apply BitVec.eq_of_getLsbD_eq; intro i hi
     simp only [subkey1, subkey2, subkey3, subkey4, field, BitVec.getLsbD_extractLsb',
       BitVec.getLsbD_append, hi, decide_true, Bool.true_and]
     repeat' split
     all_goals first
       | omega
       | (congr 1; omega))

end Sys2Proof.Machine
end

