-- ==== Sys2Proof/Machine/Flags.lean ====
section
/-! DEFINITION. There are no flags, condition codes, predicates or status bits: no operation sets or
reads one (spec 10_state.md R19). This file therefore declares nothing. -/
end

