-- ==== Sys2Proof/Tests/Slice0.lean ====
section
/-! SUPPORT. The model's own tests. Every expected value is from spec 95_test_vectors.md (the section is
named at each group) or is a field layout written out from 30_encoding.md. The second half holds, for
every statement that has hypotheses, a concrete case that meets them all. -/

namespace Sys2Proof.Tests

open Sys2Proof Sys2Proof.Machine

/-! ### Helpers -/

/-- The key of the source's examples. -/
def K : Key32 := 0x98267351#32

/-- A small state: what `CV` holds and what the host has presented. -/
def st (cv : Option Byte) (inputs : List HostAction) : State := { State.reset with cv, inputs }

/-- `CV` and the responses after a step, where the step gives a next state. -/
def result (o : Host.Outcome State Fault Refusal) : Option (Option Byte × List Byte) :=
  match o with
  | .next t => some (t.cv, t.rsp)
  | .fault _ => none
  | .refused _ => none

/-- Why a step was refused. -/
def refusal (o : Host.Outcome State Fault Refusal) : Option Refusal :=
  match o with
  | .next _ => none
  | .fault _ => none
  | .refused r => some r

/-- One step from a state whose `CV` is given, on a request word. -/
def run1 (cv : Option Byte) (w : Nat) : Host.Outcome State Fault Refusal :=
  step ((st cv []).withFetchWord 56 w)

/-! ### Decoding and encoding (section 2.8) -/

theorem test_decode_sbox : decode 0x20000000000073#56 = .ok (.sbox 0x73#8) := by decide
theorem test_decode_sboxi_noncanonical :
    decode 0x31FFFFFFFFFF73#56 = .ok (.sboxi 0x73#8) := by decide
theorem test_decode_pbox : decode 0x400000000000C0#56 = .ok (.pbox 0xC0#8) := by decide
theorem test_decode_pboxi : decode 0x50000000000003#56 = .ok (.pboxi 0x03#8) := by decide
theorem test_decode_encb : decode 0x60982673510073#56 = .ok (.encb 0x73#8 K) := by decide
theorem test_decode_encb_noncanonical :
    decode 0x61982673514273#56 = .ok (.encb 0x73#8 K) := by decide
theorem test_decode_decb : decode 0x709826735100D3#56 = .ok (.decb 0xD3#8 K) := by decide
theorem test_decode_ecbe : decode 0x80982673510073#56 = .ok (.ecbe 0x73#8 K) := by decide
theorem test_decode_ecbd : decode 0x909826735100D3#56 = .ok (.ecbd 0xD3#8 K) := by decide
theorem test_decode_cbce_first :
    decode 0xA1982673514268#56 = .ok (.cbce 0x68#8 K (some 0x42#8)) := by decide
theorem test_decode_cbce_later :
    decode 0xA0982673510061#56 = .ok (.cbce 0x61#8 K none) := by decide
theorem test_decode_cbce_iv_ignored :
    decode 0xA0982673514261#56 = .ok (.cbce 0x61#8 K none) := by decide
theorem test_decode_cbcd_first :
    decode 0xB1982673514266#56 = .ok (.cbcd 0x66#8 K (some 0x42#8)) := by decide
theorem test_decode_largest :
    decode 0xB1FFFFFFFFFFFF#56 = .ok (.cbcd 0xFF#8 0xFFFFFFFF#32 (some 0xFF#8)) := by decide
theorem test_decode_smallest : decode 0x20000000000000#56 = .ok (.sbox 0x00#8) := by decide

/-- The ten canonical words of section 2.8, as the encoder writes them. -/
theorem test_encode_canonical :
    encode (.sbox 0x73#8) = 0x20000000000073#56 ∧
    encode (.pbox 0xC0#8) = 0x400000000000C0#56 ∧
    encode (.pboxi 0x03#8) = 0x50000000000003#56 ∧
    encode (.encb 0x73#8 K) = 0x60982673510073#56 ∧
    encode (.decb 0xD3#8 K) = 0x709826735100D3#56 ∧
    encode (.ecbe 0x73#8 K) = 0x80982673510073#56 ∧
    encode (.ecbd 0xD3#8 K) = 0x909826735100D3#56 ∧
    encode (.cbce 0x68#8 K (some 0x42#8)) = 0xA1982673514268#56 ∧
    encode (.cbce 0x61#8 K none) = 0xA0982673510061#56 ∧
    encode (.cbcd 0x66#8 K (some 0x42#8)) = 0xB1982673514266#56 := by decide

/-- `decodeTableWord` numbers the bits of a word as the request word does; a longer word is none. -/
theorem test_decodeTableWord :
    decodeTableWord 56 0x20000000000073 = some (.sbox 0x73#8) ∧
    decodeTableWord 56 0xA1982673514268 = some (.cbce 0x68#8 K (some 0x42#8)) ∧
    decodeTableWord 56 0x10982673510073 = none ∧
    decodeTableWord 64 0x0120000000000073 = none := by decide

/-! ### Well-formedness: every check refuses an ill-formed word (section 2.8, illegal words) -/

theorem test_wf_reserved_bit_refused :
    reservedClear 0x62982673510073#56 = false ∧ legalWord 0x62982673510073#56 = false ∧
    legalWord 0xA9982673514268#56 = false ∧ legalWord 0x2E000000000073#56 = false := by decide
theorem test_wf_op_too_low_refused :
    opAssigned 0x10982673510073#56 = false ∧ legalWord 0x10982673510073#56 = false ∧
    legalWord 0x00000000000000#56 = false ∧ legalWord 0x01000000000000#56 = false ∧
    legalWord 0x1FFFFFFFFFFFFF#56 = false := by decide
theorem test_wf_op_too_high_refused :
    opAssigned 0xC0982673510073#56 = false ∧ legalWord 0xC0982673510073#56 = false ∧
    legalWord 0xD1982673514273#56 = false ∧ legalWord 0xE0000000000000#56 = false ∧
    legalWord 0xF0000000000000#56 = false ∧ legalWord 0xFFFFFFFFFFFFFF#56 = false := by decide
theorem test_wf_noncanonical_refused :
    canonicalWord 0x31FFFFFFFFFF73#56 = false ∧ canonicalWord 0x61982673514273#56 = false ∧
    canonicalWord 0xA0982673514261#56 = false ∧ canonicalWord 0xB1FFFFFFFFFFFF#56 = true := by
  decide
set_option maxRecDepth 8000 in
/-- Of the 256 top bytes exactly 20 are legal. -/
theorem test_wf_twenty_top_bytes :
    (List.range 256).countP (fun n => legalWord (BitVec.ofNat 8 n ++ 0#48)) = 20 := by decide

/-! ### One step per instruction (sections 2.2 to 2.7) -/

theorem test_sbox : result (run1 none 0x20000000000073) = some (none, [0x8C#8]) := by decide
theorem test_sbox_ignored_fields :
    result (run1 (some 0x11#8) 0x21DEADBEEF9973) = some (some 0x11#8, [0x8C#8]) := by decide
theorem test_sboxi : result (run1 none 0x3000000000008C) = some (none, [0x73#8]) := by decide
theorem test_sboxi_zero : result (run1 none 0x30000000000000) = some (none, [0xFF#8]) := by decide
theorem test_pbox_truncates :
    result (run1 none 0x400000000000C0) = some (none, [0x03#8]) := by decide
theorem test_pbox : result (run1 none 0x40000000000073) = some (none, [0xCD#8]) := by decide
theorem test_pboxi : result (run1 none 0x50000000000003) = some (none, [0xC0#8]) := by decide
theorem test_pboxi_ends : result (run1 none 0x50000000000081) = some (none, [0x60#8]) := by decide
theorem test_encb : result (run1 none 0x60982673510073) = some (none, [0xD3#8]) := by decide
theorem test_decb : result (run1 none 0x709826735100D3) = some (none, [0x73#8]) := by decide
theorem test_ecbe :
    result (run1 (some 0x66#8) 0x80982673510061) = some (some 0x66#8, [0xF2#8]) := by decide
theorem test_ecbd :
    result (run1 (some 0x66#8) 0x909826735100A0) = some (some 0x66#8, [0x64#8]) := by decide
theorem test_cbce_first :
    result (run1 none 0xA1982673514268) = some (some 0x66#8, [0x66#8]) := by decide
theorem test_cbce_later :
    result (run1 (some 0x66#8) 0xA0982673510061) = some (some 0xB6#8, [0xB6#8]) := by decide
theorem test_cbcd_first :
    result (run1 none 0xB1982673514266) = some (some 0x66#8, [0x68#8]) := by decide
theorem test_cbcd_later :
    result (run1 (some 0x66#8) 0xB09826735100B6) = some (some 0xB6#8, [0x61#8]) := by decide

/-! ### Refusals (sections 2.8 and 3, programs 5 and 6) and the host's other actions -/

theorem test_refuse_cbc_after_reset :
    refusal (run1 none 0xA0982673510068) = some .chainFromNoValue ∧
    refusal (run1 none 0xB0982673510066) = some .chainFromNoValue := by decide
theorem test_refuse_illegal :
    refusal (run1 (some 0x00#8) 0x00000000000000) = some (.illegalRequest (.opCode 0#4)) ∧
    refusal (run1 none 0xFFFFFFFFFFFFFF) = some (.illegalRequest (.reservedBits 7#3)) := by decide
theorem test_reset_empties :
    result (step { st (some 0x66#8) [.reset] with rsp := [0x66#8] }) = some (none, []) := by decide

/-! ### The units (sections 2.1 and 2.4) -/

theorem test_field :
    field 0x73#8 4 5 = 7#4 ∧ field 0x73#8 2 7 = 1#2 ∧ field 0x73#8 2 1 = 3#2 ∧
    field K 8 25 = 0x98#8 ∧ field K 8 17 = 0x26#8 ∧ field K 8 9 = 0x73#8 ∧
    field K 8 1 = 0x51#8 := by decide
theorem test_encTrace :
    encTrace 0x73#8 K = ⟨0xEB, 0x94, 0x52, 0x74, 0x83, 0x0E, 0x7D, 0x82, 0xD3⟩ := by decide
theorem test_encTrace_other_key :
    encTrace 0xA5#8 0x01020304#32 =
      ⟨0xA4, 0xD3, 0x4F, 0x4D, 0x32, 0xC8, 0xCB, 0xB4, 0xB0⟩ := by decide
theorem test_decTrace :
    decTrace 0xD3#8 K = ⟨0x82, 0x7D, 0x0E, 0x83, 0x74, 0x52, 0x94, 0xEB, 0x73⟩ := by decide

/-! ### The functions of whole buffers (sections 2.6 and 2.7) -/

theorem test_encryptEcb_sads :
    encryptEcb [0x73, 0x61, 0x64, 0x73] K = [0xD3, 0xF2, 0xA0, 0xD3] := by decide
theorem test_encryptCbc_hacker :
    encryptCbc [0x68, 0x61, 0x63, 0x6B, 0x65, 0x72] K 0x42#8 =
      [0x66, 0xB6, 0xBB, 0xE9, 0x0E, 0x21] := by decide
theorem test_decryptCbc_damaged :
    decryptCbc [0x66, 0xB7, 0xBB, 0xE9, 0x0E, 0x21] K 0x42#8 =
      [0x68, 0x71, 0x62, 0x6B, 0x65, 0x72] := by decide

/-! ### The notation (30_encoding.md R45; section 2.8) -/

theorem test_assemble_first_beat :
    assembleLine "CBCE.F 0x68, 0x98267351, 0x42 ; beat 0".toList =
      some [.cbce 0x68#8 K (some 0x42#8)] := by decide
theorem test_assemble_quoted_and_decimal :
    assembleLine "SBOX 's'".toList = some [.sbox 0x73#8] ∧
    assembleLine "PBOX 192".toList = some [.pbox 0xC0#8] ∧
    assembleLine "; a comment".toList = some [] := by decide
/-- The model's choices where R45 is silent (log entry 6): no blank is needed before a quoted operand,
one is needed before a number, a quoted `;` is no comment, and a quoted character may be the key. -/
theorem test_assemble_blanks_and_quotes :
    assembleLine "SBOX's'".toList = some [.sbox 0x73#8] ∧
    assembleLine "SBOX0x73".toList = none ∧
    assembleLine "SBOX ';'".toList = some [.sbox 0x3B#8] ∧
    assembleLine "ENCB 's', 'k'".toList = some [.encb 0x73#8 0x0000006B#32] := by decide
/-- The model's choice of line end (log entry 6): a line feed, not a carriage return. -/
theorem test_assemble_line_ends :
    assemble "SBOX 0x73\n; a comment\nPBOX 192".toList =
      some [0x20000000000073#56, 0x400000000000C0#56] ∧
    assemble "SBOX 0x73\r\nPBOX 192".toList = none := by decide
theorem test_assemble_suffix_needs_iv :
    assembleLine "CBCE.F 0x68, 0x98267351".toList = none ∧
    assembleLine "CBCE 0x68, 0x98267351, 0x42".toList = none ∧
    assembleLine "SBOX 256".toList = none := by decide
theorem test_disassemble :
    disassemble 0xA0982673514261#56 = some "CBCE 0x61, 0x98267351".toList := by decide

/-! ### Witnesses: each shows a concrete case of every hypothesis of the statement it names -/

theorem witness_EncodeOfDecodeClearsIgnoredFields :
    (decode 0x21DEADBEEF9973#56 = .ok (.sbox 0x73#8) ∧
      ((0x21DEADBEEF9973#56).extractLsb' 52 4).toNat ≤ 0x5) ∧
    (decode 0x51DEADBEEF9973#56 = .ok (.pboxi 0x73#8) ∧
      ((0x51DEADBEEF9973#56).extractLsb' 52 4).toNat ≤ 0x5) ∧
    (decode 0x61982673514273#56 = .ok (.encb 0x73#8 K) ∧
      0x6 ≤ ((0x61982673514273#56).extractLsb' 52 4).toNat ∧
      ((0x61982673514273#56).extractLsb' 52 4).toNat ≤ 0x9) ∧
    (decode 0x91982673514273#56 = .ok (.ecbd 0x73#8 K) ∧
      0x6 ≤ ((0x91982673514273#56).extractLsb' 52 4).toNat ∧
      ((0x91982673514273#56).extractLsb' 52 4).toNat ≤ 0x9) ∧
    (decode 0xA0982673514261#56 = .ok (.cbce 0x61#8 K none) ∧
      0xA ≤ ((0xA0982673514261#56).extractLsb' 52 4).toNat ∧
      (0xA0982673514261#56).getLsbD 48 = false) ∧
    (decode 0xB1982673514266#56 = .ok (.cbcd 0x66#8 K (some 0x42#8)) ∧
      0xA ≤ ((0xB1982673514266#56).extractLsb' 52 4).toNat ∧
      (0xB1982673514266#56).getLsbD 48 = true) := by decide

theorem witness_IllegalRequestIsRefused :
    ((st none [.request 0x62982673510073#56]).inputs = [.request 0x62982673510073#56] ∧
      (0x62982673510073#56).extractLsb' 49 3 ≠ 0#3) ∧
    ((st none [.request 0x10982673510073#56]).inputs = [.request 0x10982673510073#56] ∧
      (0x10982673510073#56).extractLsb' 49 3 = 0#3 ∧
      (0x10982673510073#56).extractLsb' 52 4 ∈
        [0b0000#4, 0b0001#4, 0b1100#4, 0b1101#4, 0b1110#4, 0b1111#4]) ∧
    ((st none [.request 0xC0982673510073#56]).inputs = [.request 0xC0982673510073#56] ∧
      (0xC0982673510073#56).extractLsb' 49 3 = 0#3 ∧
      (0xC0982673510073#56).extractLsb' 52 4 ∈
        [0b0000#4, 0b0001#4, 0b1100#4, 0b1101#4, 0b1110#4, 0b1111#4]) ∧
    decode 0xB1FFFFFFFFFFFF#56 = .ok (.cbcd 0xFF#8 0xFFFFFFFF#32 (some 0xFF#8)) ∧
    decode 0x20000000000000#56 = .ok (.sbox 0x00#8) := by decide

/-- Two different words for each group of codes that agree on the fields used. -/
theorem witness_IgnoredFieldsHaveNoEffect :
    (0x20000000000073#56 ≠ 0x21DEADBEEF9973#56 ∧
      (0x20000000000073#56).extractLsb' 49 7 = (0x21DEADBEEF9973#56).extractLsb' 49 7 ∧
      (0x20000000000073#56).extractLsb' 0 8 = (0x21DEADBEEF9973#56).extractLsb' 0 8 ∧
      ¬ 0x6 ≤ ((0x20000000000073#56).extractLsb' 52 4).toNat) ∧
    (0x60982673510073#56 ≠ 0x61982673514273#56 ∧
      (0x60982673510073#56).extractLsb' 49 7 = (0x61982673514273#56).extractLsb' 49 7 ∧
      (0x60982673510073#56).extractLsb' 0 8 = (0x61982673514273#56).extractLsb' 0 8 ∧
      (0x60982673510073#56).extractLsb' 16 32 = (0x61982673514273#56).extractLsb' 16 32 ∧
      ¬ 0xA ≤ ((0x60982673510073#56).extractLsb' 52 4).toNat) ∧
    (0xA0982673510061#56 ≠ 0xA0982673514261#56 ∧
      (0xA0982673510061#56).extractLsb' 49 7 = (0xA0982673514261#56).extractLsb' 49 7 ∧
      (0xA0982673510061#56).extractLsb' 0 8 = (0xA0982673514261#56).extractLsb' 0 8 ∧
      (0xA0982673510061#56).extractLsb' 16 32 = (0xA0982673514261#56).extractLsb' 16 32 ∧
      (0xA0982673510061#56).getLsbD 48 = false ∧ (0xA0982673514261#56).getLsbD 48 = false) ∧
    (0xA ≤ ((0xA1982673514268#56).extractLsb' 52 4).toNat ∧
      (0xA1982673514268#56).getLsbD 48 = true ∧
      decode 0xA1982673514268#56 = .ok (.cbce 0x68#8 K (some 0x42#8))) := by decide

theorem witness_OperationCodeSelectsUnitAndDirection :
    decode 0x31FFFFFFFFFF73#56 = .ok (.sboxi 0x73#8) ∧
    decode 0xB1FFFFFFFFFFFF#56 = .ok (.cbcd 0xFF#8 0xFFFFFFFF#32 (some 0xFF#8)) ∧
    (0x10982673510073#56).extractLsb' 53 3 = 0b000#3 ∧
    (0xC0982673510073#56).extractLsb' 53 3 = 0b110#3 ∧
    (0xF0000000000000#56).extractLsb' 53 3 = 0b111#3 := by decide

theorem witness_StepRunsDecodedRequest :
    ((st none [.request 0xA1982673514268#56, .reset]).inputs =
        [.request 0xA1982673514268#56, .reset] ∧
      decode 0xA1982673514268#56 = .ok (.cbce 0x68#8 K (some 0x42#8))) ∧
    State.reset.inputs = [] := by decide

theorem witness_RequestHasThreeOutcomes :
    decode 0x00000000000000#56 = .error (.opCode 0#4) ∧
    (decode 0xA0982673510068#56 = .ok (.cbce 0x68#8 K none) ∧
      chainsFromCV (.cbce 0x68#8 K none) = true ∧
      (st none [.request 0xA0982673510068#56]).cv = none) ∧
    (decode 0x20000000000073#56 = .ok (.sbox 0x73#8) ∧ chainsFromCV (.sbox 0x73#8) = false) ∧
    (chainsFromCV (.cbce 0x61#8 K none) = true ∧
      (st (some 0x66#8) [.request 0xA0982673510061#56]).cv ≠ none) := by decide

theorem witness_ExecFrame :
    exec (.sbox 0x73#8) (st none []) = .next { st none [] with rsp := [0x8C#8] } ∧
    exec (.cbce 0x61#8 K none) (st (some 0x66#8) []) =
      .next { st (some 0xB6#8) [] with rsp := [0xB6#8] } ∧
    exec (.cbcd 0xB6#8 K none) (st (some 0x66#8) []) =
      .next { st (some 0xB6#8) [] with rsp := [0x61#8] } := ⟨rfl, rfl, rfl⟩

theorem witness_OutcomeDependsOnOperandsAndCV :
    ((st (some 0x66#8) []).cv = { st (some 0x66#8) [.reset] with rsp := [0x66#8] }.cv ∧
      exec (.cbce 0x61#8 K none) (st (some 0x66#8) []) =
        .next { st (some 0xB6#8) [] with rsp := [0xB6#8] }) ∧
    ((st none []).cv = { st none [.reset] with past := [[0x66#8]] }.cv ∧
      exec (.cbcd 0x66#8 K none) (st none []) = .refused .chainFromNoValue) :=
  ⟨⟨rfl, rfl⟩, rfl, rfl⟩

/-- The one hypothesis of the statement, and its third clause at two values of `CV`. -/
theorem witness_WhoReadsAndWritesCV :
    isCbc (.ecbd 0xD3#8 K) = false ∧
    exec (.cbce 0x61#8 K none) { st none [] with cv := some 0x66#8, rsp := [0x66#8] } =
      .next { st (some 0xB6#8) [] with rsp := [0x66#8, 0xB6#8] } ∧
    exec (.cbcd 0xB6#8 K none) { st none [] with cv := some 0x66#8, rsp := [0x68#8] } =
      .next { st (some 0xB6#8) [] with rsp := [0x68#8, 0x61#8] } := ⟨rfl, rfl, rfl⟩

theorem witness_RefusedExactlyWhenNothingToChainFrom :
    exec (.cbce 0x68#8 K none) State.reset = .refused .chainFromNoValue ∧
    exec (.cbcd 0x66#8 K none) State.reset = .refused .chainFromNoValue := ⟨rfl, rfl⟩

theorem witness_FieldIsMaskedShift : 1 ≤ 1 ∧ (field 0x73#8 4 1).toNat = 3 := by decide

/-- `E(07, K) = B6`, with `07 = 61 ^ 66` (section 2.7, "hacker", beat 1). -/
theorem witness_CbceEncryptsAndChains :
    (0xB6#8 : Byte) =
      sbox (pbox (sbox (pbox (sbox (0x61#8 ^^^ 0x66#8 ^^^ 0x98#8)) ^^^ 0x26#8)) ^^^ 0x73#8) ^^^
        0x51#8 ∧
    (st (some 0x66#8) []).cv = some 0x66#8 ∧ State.reset.cv = none := by decide

/-- `D(B6, K) = 07` (section 2.7, "hacker", decryption of beat 1). -/
theorem witness_CbcdDecryptsAndChains :
    (0x07#8 : Byte) =
      sboxi (pboxi (sboxi (pboxi (sboxi (0xB6#8 ^^^ 0x51#8) ^^^ 0x73#8)) ^^^ 0x26#8)) ^^^ 0x98#8 ∧
    (st (some 0x66#8) []).cv = some 0x66#8 ∧ State.reset.cv = none := by decide

theorem witness_SubstitutionRoundTrip :
    exec (.sbox 0x73#8) State.reset = .next { State.reset with rsp := [0x8C#8] } ∧
    { State.reset with rsp := [0x8C#8] }.rsp = State.reset.rsp ++ [0x8C#8] := ⟨rfl, rfl⟩

theorem witness_PermutationRoundTrip :
    exec (.pbox 0xC0#8) State.reset = .next { State.reset with rsp := [0x03#8] } ∧
    { State.reset with rsp := [0x03#8] }.rsp = State.reset.rsp ++ [0x03#8] := ⟨rfl, rfl⟩

theorem witness_BlockRoundTrip :
    exec (.encb 0x73#8 K) State.reset = .next { State.reset with rsp := [0xD3#8] } ∧
    { State.reset with rsp := [0xD3#8] }.rsp = State.reset.rsp ++ [0xD3#8] := ⟨rfl, rfl⟩

/-- Two different keys that agree on 00 (section 2.4). -/
theorem witness_BlockCipherIsAffine :
    (0x00000000#32 : Key32) ≠ 0xFFFFFFFF#32 ∧
    blockE 0x00#8 0x00000000#32 = blockE 0x00#8 0xFFFFFFFF#32 := by decide

theorem witness_ChainingRegisterLifetime :
    (decode 0xA1982673514268#56 = .ok (.cbce 0x68#8 K (some 0x42#8)) ∧
      step (st none [.request 0xA1982673514268#56]) =
        .next { st (some 0x66#8) [] with rsp := [0x66#8] }) ∧
    (step (st (some 0x66#8) [.reset]) = .next { st none [] with past := [[]] } ∧
      (st (some 0x66#8) [.reset]).cv.isSome = true) ∧
    (decode 0xB0982673510066#56 = .ok (.cbcd 0x66#8 K none) ∧
      chainsFromCV (.cbcd 0x66#8 K none) = true ∧ State.reset.cv = none) :=
  ⟨⟨rfl, rfl⟩, ⟨rfl, rfl⟩, rfl, rfl, rfl⟩

theorem witness_ResetEmptiesChainingRegister :
    (st (some 0x66#8) [.reset, .request 0x20000000000073#56]).inputs =
      [.reset, .request 0x20000000000073#56] := rfl

theorem witness_ResetDuringRequestIsAtomic :
    (st (some 0x66#8) [.resetDuring 0xA0982673510061#56]).inputs =
        [.resetDuring 0xA0982673510061#56] ∧
      decode 0xA0982673510061#56 = .ok (.cbce 0x61#8 K none) := ⟨rfl, rfl⟩

theorem witness_ChainsFromLastCbcRequest :
    isCbc (.cbce 0x68#8 K (some 0x42#8)) = true ∧
    (∀ y ∈ [Instr.sbox 0x73#8], isCbc y = false) ∧
    runInstrs ([.pbox 0xC0#8] ++ .cbce 0x68#8 K (some 0x42#8) :: [.sbox 0x73#8]) State.reset =
      .next { st (some 0x66#8) [] with rsp := [0x03#8, 0x66#8, 0x8C#8] } :=
  ⟨rfl, by simp [isCbc], rfl⟩

theorem witness_EcbElementwise : [0x73#8, 0x61#8][1]? = some 0x61#8 := rfl

theorem witness_EcbCallsComputeEcb :
    runInstrs [.ecbe 0x73#8 K, .cbcd 0x66#8 K (some 0x42#8), .ecbd 0xD3#8 K] State.reset =
      .next { st (some 0x66#8) [] with rsp := [0xD3#8, 0x68#8, 0x73#8] } ∧
    [Instr.ecbe 0x73#8 K, .cbcd 0x66#8 K (some 0x42#8), .ecbd 0xD3#8 K][0]? =
      some (.ecbe 0x73#8 K) ∧
    [Instr.ecbe 0x73#8 K, .cbcd 0x66#8 K (some 0x42#8), .ecbd 0xD3#8 K][2]? =
      some (.ecbd 0xD3#8 K) ∧
    (∀ x ∈ [Instr.ecbe 0x73#8 K, .cbcd 0x66#8 K (some 0x42#8), .ecbd 0xD3#8 K],
      (!isCbc x) = true → isCbc x = false) :=
  ⟨rfl, rfl, rfl, by simp⟩

theorem witness_CbcEncryptRecurrence :
    [0x68#8, 0x61#8][0]? = some 0x68#8 ∧
    (0x42#8 :: encryptCbc [0x68#8, 0x61#8] K 0x42#8)[0]? = some 0x42#8 ∧
    [0x68#8, 0x61#8][1]? = some 0x61#8 ∧
    (0x42#8 :: encryptCbc [0x68#8, 0x61#8] K 0x42#8)[1]? = some 0x66#8 := by decide

theorem witness_CbcDecryptRecurrence :
    [0x66#8, 0xB6#8][0]? = some 0x66#8 ∧ (0x42#8 :: [0x66#8, 0xB6#8])[0]? = some 0x42#8 ∧
    [0x66#8, 0xB6#8][1]? = some 0xB6#8 ∧ (0x42#8 :: [0x66#8, 0xB6#8])[1]? = some 0x66#8 := by
  decide

/-- No beat yet, one beat with another request around it, and all the beats. -/
theorem witness_CbcEncryptCallComputesEncryptCbc :
    (0 ≤ [0x68#8, 0x61#8].length ∧
      [Instr.sbox 0x73#8].filter isCbc = (callEncryptCbc [0x68#8, 0x61#8] K 0x42#8).take 0) ∧
    (0 + 1 ≤ [0x68#8, 0x61#8].length ∧
      [Instr.sbox 0x73#8, .cbce 0x68#8 K (some 0x42#8), .ecbe 0x73#8 K].filter isCbc =
        (callEncryptCbc [0x68#8, 0x61#8] K 0x42#8).take (0 + 1)) ∧
    (1 + 1 ≤ [0x68#8, 0x61#8].length ∧
      [Instr.cbce 0x68#8 K (some 0x42#8), .pbox 0xC0#8, .cbce 0x61#8 K none].filter isCbc =
        (callEncryptCbc [0x68#8, 0x61#8] K 0x42#8).take (1 + 1)) := by decide

theorem witness_CbcDecryptCallComputesDecryptCbc :
    (0 ≤ [0x66#8, 0xB6#8].length ∧
      [Instr.sbox 0x73#8].filter isCbc = (callDecryptCbc [0x66#8, 0xB6#8] K 0x42#8).take 0) ∧
    (0 + 1 ≤ [0x66#8, 0xB6#8].length ∧
      [Instr.sbox 0x73#8, .cbcd 0x66#8 K (some 0x42#8), .ecbe 0x73#8 K].filter isCbc =
        (callDecryptCbc [0x66#8, 0xB6#8] K 0x42#8).take (0 + 1)) ∧
    (1 + 1 ≤ [0x66#8, 0xB6#8].length ∧
      [Instr.cbcd 0x66#8 K (some 0x42#8), .pbox 0xC0#8, .cbcd 0xB6#8 K none].filter isCbc =
        (callDecryptCbc [0x66#8, 0xB6#8] K 0x42#8).take (1 + 1)) := by decide

theorem witness_CallIsIndependentOfHistory :
    (∀ x, [Instr.sbox 0x73#8, .cbce 0x68#8 K (some 0x42#8), .cbce 0x61#8 K none].find? isCbc =
      some x → chainsFromCV x = false) ∧
    [Instr.sbox 0x73#8, .cbce 0x68#8 K (some 0x42#8), .cbce 0x61#8 K none].find? isCbc =
      some (.cbce 0x68#8 K (some 0x42#8)) := by
  refine ⟨fun x h => ?_, rfl⟩
  cases (h : some (Instr.cbce 0x68#8 K (some 0x42#8)) = some x)
  rfl

theorem witness_OneResponsePerRequest :
    (st none [.request 0x20000000000073#56, .request 0xA1982673514268#56, .reset]).inputs =
      [0x20000000000073#56, 0xA1982673514268#56].map HostAction.request ++ [.reset] ∧
    stepN 2 (st none [.request 0x20000000000073#56, .request 0xA1982673514268#56, .reset]) =
      .next { st (some 0x66#8) [.reset] with rsp := [0x8C#8, 0x66#8] } := ⟨rfl, rfl⟩

/-- A call, a reset and a new call keep the duties (section 3, program 5). -/
theorem witness_StepKeepsDuties :
    SafeInputs (st none [.request 0xA1982673514268#56, .request 0xA0982673510061#56, .reset,
      .request 0xB1982673514266#56]) ∧
    SafeInputs (st (some 0x66#8) [.request 0xA0982673510061#56]) := by decide

theorem witness_DutiesHoldAtReset :
    chainsFromCV (.cbce 0x68#8 K (some 0x42#8)) = false ∧ chainsFromCV (.sbox 0x73#8) = false := by
  decide

theorem witness_DutifulRunIsNeverRefused :
    SafeInputs (st none [.request 0xB1982673514266#56, .request 0xB09826735100B6#56]) := by decide

/-- Each duty broken, alone. -/
theorem witness_BrokenDutyIsRefused :
    (NoResetDuring (st none [.request 0x00000000000000#56]) ∧
      ¬ SafeInputs (st none [.request 0x00000000000000#56])) ∧
    (NoResetDuring (st none [.request 0xA0982673510068#56]) ∧
      ¬ SafeInputs (st none [.request 0xA0982673510068#56])) := by
  refine ⟨⟨?_, by decide⟩, ?_, by decide⟩ <;> intro w <;> simp [st]

end Sys2Proof.Tests
end

