-- ==== Sys2Proof/Proofs/Field.lean ====
section
/-! SUPPORT. The bit-field extractor (spec 00_scope.md R12): its value as a number, and how adjacent
fields make up the value they were taken from. -/

namespace Sys2Proof.Machine

/-- An extracted field as a number: mask after shift (R12). At `p = 0` this still holds, with `p - 1`
read as `0`. -/
theorem field_toNat {w : Nat} (v : BitVec w) (k p : Nat) :
    (field v k p).toNat = ((1 <<< k) - 1) &&& (v.toNat >>> (p - 1)) := by
  rw [field, BitVec.extractLsb'_toNat, Nat.one_shiftLeft, Nat.and_comm,
    Nat.and_two_pow_sub_one_eq_mod]

/-- The field of the whole width from position 1 is the value itself. -/
theorem field_full {w : Nat} (v : BitVec w) : field v w 1 = v :=
  BitVec.extractLsb'_eq_self

/-- A field of width `j` that starts where one of width `k` ends joins it to one of width `j + k`. -/
theorem field_append_field {w : Nat} (v : BitVec w) (j k : Nat) {p q : Nat} (hp : 1 ≤ p)
    (hq : q = p + k) : field v j q ++ field v k p = field v (j + k) p :=
  BitVec.extractLsb'_append_extractLsb'_eq_extractLsb' (by omega)

/-- The two fields the substitution reads, `v[7:4]` and `v[3:0]`, make up the byte. -/
theorem nibble_fields_append (v : Byte) : field v 4 5 ++ field v 4 1 = v := by
  rw [field_append_field v 4 4 (by decide) rfl, field_full]

/-- The two fields the permutations read, `v[7:6]` and `v[1:0]`, make up the byte with `v[5:2]`
between them. -/
theorem pair_fields_append (v : Byte) :
    field v 2 7 ++ v.extractLsb' 2 4 ++ field v 2 1 = v := by
  have hmid : v.extractLsb' 2 4 = field v 4 3 := rfl
  rw [hmid, field_append_field v 2 4 (by decide) rfl, field_append_field v 6 2 (by decide) rfl,
    field_full]

/-- The four fields the key schedule reads make up the key, the first subkey on top. -/
theorem subkey_fields_append (key : Key32) :
    field key 8 25 ++ field key 8 17 ++ field key 8 9 ++ field key 8 1 = key := by
  rw [field_append_field key 8 8 (by decide) rfl, field_append_field key 16 8 (by decide) rfl,
    field_append_field key 24 8 (by decide) rfl, field_full]

/-- Settles O15: the extractor's value is R12's formula, and adjacent fields join to the byte and the
key they were taken from. -/
theorem fieldIsMaskedShift : Obligations.FieldIsMaskedShift := by
  refine ⟨fun _ v k p _ => field_toNat v k p, fun v key => ⟨?_, ?_, ?_⟩⟩
  · exact (nibble_fields_append v).symm
  · exact (pair_fields_append v).symm
  · exact (subkey_fields_append key).symm

end Sys2Proof.Machine
end

