-- ==== Sys2Proof/Proofs/BlockInverse.lean ====
section
/-! SUPPORT. The inverse half of each unit undoes the forward half (spec 40_sbox.md R51, R53,
41_pbox.md R59, 42_block_cipher.md R67), so the block functions lose nothing of their block. -/

namespace Sys2Proof.Machine

/-- Inverse substitution undoes substitution, nibble by nibble (R53). -/
@[simp] theorem sboxi_sbox (v : Byte) : sboxi (sbox v) = v := by
  rw [sboxi, sbox, onNibbles_eq_append s4i, onNibbles_high, onNibbles_low, s4i_s4, s4i_s4]
  exact nibble_fields_append v

/-- Rotating right by 2 undoes rotating left by 2 (R59). -/
@[simp] theorem pboxi_pbox : ∀ v : Byte, pboxi (pbox v) = v := by decide

/-- Each stage of `D` takes back one stage of `E`, the last one first (R67). -/
theorem blockD_blockE (m : Byte) (k : Key32) : blockD (blockE m k) k = m := by
  simp [blockE, encTrace, blockD, decTrace]

/-- Under one key, two blocks never encrypt to the same byte (R67). -/
theorem blockE_injective (k : Key32) : Function.Injective fun m => blockE m k :=
  Function.LeftInverse.injective (g := fun c => blockD c k) fun m => blockD_blockE m k

end Sys2Proof.Machine
end

