-- ==== Sys2Proof/Proofs/ChainingRegister.lean ====
section
/-! SUPPORT. What an instruction reads and changes of the state, and the life of the chaining register
`CV` (spec 10_state.md R14 to R23, 44_cbc.md R79 to R81). -/

namespace Sys2Proof.Machine

/-! ### What one instruction does to the state -/

/-- An operation outside the CBC controller answers with a byte that no part of the state affects, and
does nothing else (R22). -/
theorem exec_of_not_isCbc {i : Instr} (h : isCbc i = false) :
    ∃ b : Byte, ∀ s : State, exec i s = .next (s.respond b) := by
  cases i with
  | cbce | cbcd => cases h
  | _ => exact ⟨_, fun _ => rfl⟩

/-- A CBCE beat that has a chaining input (R80). -/
theorem exec_cbce_of_chainInput {d cin : Byte} {k : Key32} {iv : Option Byte} {s : State}
    (h : chainInput iv s = some cin) :
    exec (.cbce d k iv) s =
      .next ((s.respond (blockE (d ^^^ cin) k)).writeCV (blockE (d ^^^ cin) k)) :=
  execCbce_next_iff.mpr ⟨cin, h, rfl⟩

/-- A CBCD beat that has a chaining input (R81). -/
theorem exec_cbcd_of_chainInput {d cin : Byte} {k : Key32} {iv : Option Byte} {s : State}
    (h : chainInput iv s = some cin) :
    exec (.cbcd d k iv) s = .next ((s.respond (blockD d k ^^^ cin)).writeCV d) :=
  execCbcd_next_iff.mpr ⟨cin, h, rfl⟩

/-- An instruction that chains from `CV` while it holds no value is refused (R16, R79). -/
theorem exec_refused_of_chainsFromCV {i : Instr} {s : State} (hi : chainsFromCV i = true)
    (hs : s.cv = none) : exec i s = .refused .chainFromNoValue := by
  rcases exec_cases i s with ⟨-, -, href⟩ | ⟨hnot, -⟩
  · exact href
  · exact absurd ⟨hi, hs⟩ hnot

/-- Settles O11: the completing case of `exec_cases`, field by field. -/
theorem execFrame : Obligations.ExecFrame := by
  intro i s t ht
  rcases exec_cases i s with ⟨-, -, href⟩ | ⟨-, b, hnext⟩
  · rw [href] at ht
    cases ht
  · rw [hnext] at ht
    cases ht
    exact ⟨b, rfl, rfl, rfl, rfl, rfl⟩

/-- Settles O14: of the two cases of `exec_cases` one is a refusal, for the one reason. -/
theorem refusedExactlyWhenNothingToChainFrom :
    Obligations.RefusedExactlyWhenNothingToChainFrom := by
  intro i s
  rcases exec_cases i s with ⟨hi, hs, href⟩ | ⟨hnot, b, hnext⟩
  · simp [href, hi, hs]
  · simp [hnext, hnot]

/-! ### What of the state an instruction reads -/

/-- The chaining input is one byte for all states with the same `CV`, unless there is none (R79). -/
theorem exists_chainInput_of_cv {iv c : Option Byte} (h : ¬ (iv.isNone = true ∧ c = none)) :
    ∃ cin : Byte, ∀ s : State, s.cv = c → chainInput iv s = some cin := by
  cases iv with
  | some v => exact ⟨v, fun _ _ => rfl⟩
  | none =>
    cases c with
    | none => exact absurd ⟨rfl, rfl⟩ h
    | some cin => exact ⟨cin, fun _ hs => hs⟩

/-- The operands and what `CV` holds fix the outcome, whatever else the state holds: the instruction is
refused from all states with that `CV`, or from all of them answers one byte and leaves one `CV`. -/
theorem exec_outcome_of_cv (i : Instr) (c : Option Byte) :
    (∀ s : State, s.cv = c → exec i s = .refused .chainFromNoValue) ∨
    ∃ (b : Byte) (c' : Option Byte), ∀ s : State, s.cv = c →
      exec i s = .next { s with cv := c', rsp := s.rsp ++ [b] } := by
  by_cases hrefused : chainsFromCV i = true ∧ c = none
  · obtain ⟨hi, rfl⟩ := hrefused
    exact .inl fun _ => exec_refused_of_chainsFromCV hi
  · right
    cases hcbc : isCbc i with
    | false =>
      obtain ⟨b, hb⟩ := exec_of_not_isCbc hcbc
      refine ⟨b, c, ?_⟩
      rintro s rfl
      exact hb s
    | true =>
      cases i with
      | cbce d k iv =>
        obtain ⟨cin, hcin⟩ := exists_chainInput_of_cv hrefused
        exact ⟨_, _, fun s hs => exec_cbce_of_chainInput (hcin s hs)⟩
      | cbcd d k iv =>
        obtain ⟨cin, hcin⟩ := exists_chainInput_of_cv hrefused
        exact ⟨_, _, fun s hs => exec_cbcd_of_chainInput (hcin s hs)⟩
      | _ => cases hcbc

/-- Settles O12: both states fall under the same case of `exec_outcome_of_cv`. -/
theorem outcomeDependsOnOperandsAndCV : Obligations.OutcomeDependsOnOperandsAndCV := by
  intro i s s' hcv
  rcases exec_outcome_of_cv i s.cv with href | ⟨b, c', hnext⟩
  · rw [href s rfl, href s' hcv.symm]
    exact ⟨fun _ => nofun, fun _ => id⟩
  · rw [hnext s rfl, hnext s' hcv.symm]
    refine ⟨fun t ht => ?_, fun _ => nofun⟩
    cases ht
    exact ⟨b, _, rfl, rfl, rfl, rfl⟩

/-- Settles O13: outside the CBC controller the byte is the same from every state; with an iv it is
that of the iv; and with what `CV` held as chaining input it is injective, by `blockE_injective` and
by cancelling the exclusive-or. -/
theorem whoReadsAndWritesCV : Obligations.WhoReadsAndWritesCV := by
  refine ⟨fun i hi => ?_, fun d k v => ?_, fun d k => ?_⟩
  · obtain ⟨b, hb⟩ := exec_of_not_isCbc hi
    exact ⟨b, fun _ _ _ _ => hb _⟩
  · exact ⟨blockE (d ^^^ v) k, blockD d k ^^^ v, fun _ _ _ _ =>
      ⟨exec_cbce_of_chainInput rfl, exec_cbcd_of_chainInput rfl⟩⟩
  · have henc : Function.Injective fun c : Byte => blockE (d ^^^ c) k :=
      (blockE_injective k).comp fun _ _ => (BitVec.xor_right_inj d).mp
    have hdec : Function.Injective fun c : Byte => blockD d k ^^^ c :=
      fun _ _ => (BitVec.xor_right_inj (blockD d k)).mp
    exact ⟨_, _, henc, hdec, fun _ _ _ _ =>
      ⟨exec_cbce_of_chainInput rfl, exec_cbcd_of_chainInput rfl⟩⟩

/-! ### The life of `CV` -/

/-- A completed instruction leaves a value in `CV` exactly when it is a CBC one or found one there
(R16). -/
theorem exec_cv_isSome_iff {i : Instr} {s t : State} (h : exec i s = .next t) :
    t.cv.isSome = true ↔ isCbc i = true ∨ s.cv.isSome = true := by
  obtain ⟨b, -, -, -, -, hcv⟩ := execFrame i s t h
  rw [hcv]
  cases i <;> simp [isCbc]

/-- With a request waiting whose word decodes, a step executes it. -/
theorem step_of_request {s : State} {w : ReqWord} {rest : List HostAction} {i : Instr}
    (hs : s.inputs = .request w :: rest) (hw : decode w = .ok i) :
    step s = exec i { s with inputs := rest } := by
  rw [step_of_inputs_cons hs]
  simp only [doAction, execRequest, hw]

/-- With an illegal request waiting, a step is refused (R42). -/
theorem step_of_illegal_request {s : State} {w : ReqWord} {rest : List HostAction} {why : Illegal}
    (hs : s.inputs = .request w :: rest) (hw : decode w = .error why) :
    step s = .refused (.illegalRequest why) := by
  rw [step_of_inputs_cons hs]
  simp only [doAction, execRequest, hw]

/-- With nothing presented a step changes nothing (log entry 2). -/
theorem step_of_inputs_nil {s : State} (h : s.inputs = []) : step s = .next s := by
  simp only [step, State.takeAction, h]

/-- A step on a request never takes the value out of `CV` (R16). -/
theorem step_request_keeps_cv_value {s t : State} {w : ReqWord} {rest : List HostAction}
    (hs : s.inputs = .request w :: rest) (ht : step s = .next t) (hcv : s.cv.isSome = true) :
    t.cv.isSome = true := by
  cases hw : decode w with
  | error why => simp [step_of_illegal_request hs hw] at ht
  | ok i =>
    rw [step_of_request hs hw] at ht
    exact (exec_cv_isSome_iff ht).mpr (.inr hcv)

/-- Settles O33: the request clauses are those of `exec`, and a step that takes the value away has
neither done nothing nor run a request. -/
theorem chainingRegisterLifetime : Obligations.ChainingRegisterLifetime := by
  refine ⟨rfl, fun s t w rest i hs hw ht => ?_, fun s t ht hcv hnone => ?_,
    fun s w rest i hs hw hi hnone => ?_⟩
  · rw [step_of_request hs hw] at ht
    exact exec_cv_isSome_iff (s := { s with inputs := rest }) ht
  · cases hs : s.inputs with
    | nil =>
      rw [step_of_inputs_nil hs] at ht
      cases ht
      simp [hnone] at hcv
    | cons a rest =>
      refine ⟨a, rest, rfl, ?_⟩
      cases a with
      | request w =>
        have hkept := step_request_keeps_cv_value hs ht hcv
        simp [hnone] at hkept
      | reset => exact .inl rfl
      | resetDuring w => exact .inr ⟨w, rfl⟩
  · rw [step_of_request hs hw]
    exact exec_refused_of_chainsFromCV hi hnone

end Sys2Proof.Machine
end

