-- ==== Sys2Proof/Proofs/RequestStream.lean ====
section
/-! SUPPORT. The two streams of the interface: what a step takes from the request stream and adds to the
response stream (spec 20_memory.md R25, R33), and that canonical words carry their instructions
(30_encoding.md R46). -/

namespace Sys2Proof

/-- The word of an instruction decodes to that instruction (R44 to R46). -/
theorem decode_encode (i : Instr) : decode (encode i) = .ok i := by
  rw [decode_eq, encode, Req.ofWord_toWord]
  cases i with
  | cbce d k iv | cbcd d k iv => cases iv <;> rfl
  | _ => rfl

end Sys2Proof

namespace Sys2Proof.Machine

/-- Settles O9. -/
theorem stepRunsDecodedRequest : Obligations.StepRunsDecodedRequest :=
  ⟨fun _ _ _ _ => step_of_request, fun _ => step_of_inputs_nil⟩

/-! ### The order of execution -/

/-- Settles O48, by induction on the requests: the first step is `exec` of the first instruction, which
depends on no waiting action (`exec_outcome_of_cv`), so what waits behind it is carried along. -/
theorem requestStreamRunsInOrder : Obligations.RequestStreamRunsInOrder := by
  intro L s rest
  induction L generalizing s with
  | nil => rfl
  | cons i L ih =>
    have hstep (waiting : List HostAction) :
        step { s with inputs := .request (encode i) :: waiting } =
          exec i { s with inputs := waiting } := step_of_request rfl (decode_encode i)
    rcases exec_outcome_of_cv i s.cv with href | ⟨b, c', hnext⟩
    · simp only [runInstrs, href { s with inputs := rest } rfl]
      exact stepN_succ_of_refused ((hstep _).trans (href _ rfl))
    · simp only [runInstrs, hnext { s with inputs := rest } rfl]
      have hstepNext (waiting : List HostAction) := (hstep waiting).trans (hnext _ rfl)
      exact (stepN_succ_of_next (hstepNext _)).trans (ih { s with cv := c', rsp := s.rsp ++ [b] })

/-! ### One response for each request -/

/-- A run of steps that completes has completed its first one. -/
theorem stepN_succ_next_iff {n : Nat} {s t : State} :
    stepN (n + 1) s = .next t ↔ ∃ u, step s = .next u ∧ stepN n u = .next t := by
  simp only [stepN]
  cases step s <;> simp

/-- A step on a request that completes takes that request and adds one response (R25). -/
theorem step_request_frame {s t : State} {w : ReqWord} {rest : List HostAction}
    (hs : s.inputs = .request w :: rest) (ht : step s = .next t) :
    ∃ b : Byte, t.rsp = s.rsp ++ [b] ∧ t.inputs = rest ∧ t.past = s.past := by
  cases hw : decode w with
  | error why => simp [step_of_illegal_request hs hw] at ht
  | ok i =>
    rw [step_of_request hs hw] at ht
    obtain ⟨b, hrsp, hinputs, hpast, -, -⟩ := execFrame i _ t ht
    exact ⟨b, hrsp, hinputs, hpast⟩

/-- Settles O49, by induction on the request words, with `step_request_frame` for each step. -/
theorem oneResponsePerRequest : Obligations.OneResponsePerRequest := by
  intro ws s t rest hs ht
  induction ws generalizing s with
  | nil =>
    cases ht
    exact ⟨[], by simp, rfl, hs, rfl⟩
  | cons w ws ih =>
    obtain ⟨u, hu, hrun⟩ := stepN_succ_next_iff.mp ht
    obtain ⟨b, hbrsp, hbinputs, hbpast⟩ := step_request_frame hs hu
    obtain ⟨r, hrsp, hlen, hinputs, hpast⟩ := ih u hbinputs hrun
    exact ⟨b :: r, by simp [hrsp, hbrsp], by simp [hlen], hinputs, hpast.trans hbpast⟩

end Sys2Proof.Machine
end

