-- ==== Sys2Proof/Proofs/CallHistory.lean ====
section
/-! SUPPORT. What a run can depend on of the state it starts in: nothing but the value in `CV`, and not
even that once its first CBC request brings its own iv (spec 20_memory.md R28, 44_cbc.md R79). -/

namespace Sys2Proof.Machine

/-- With a value in `CV` every instruction completes, and that value alone fixes the byte answered and
the value left. -/
theorem exec_of_cv_value (i : Instr) (c : Byte) :
    ∃ b c' : Byte, ∀ s : State, s.cv = some c → exec i s = .next ((s.respond b).writeCV c') := by
  cases hcbc : isCbc i with
  | false =>
    obtain ⟨b, hb⟩ := exec_of_not_isCbc hcbc
    refine ⟨b, c, fun s hs => ?_⟩
    rw [hb s, State.writeCV, ← hs]
    rfl
  | true =>
    cases i with
    | cbce d k iv =>
      obtain ⟨cin, hcin⟩ := exists_chainInput_of_cv (iv := iv) (c := some c) (by simp)
      exact ⟨_, _, fun s hs => exec_cbce_of_chainInput (hcin s hs)⟩
    | cbcd d k iv =>
      obtain ⟨cin, hcin⟩ := exists_chainInput_of_cv (iv := iv) (c := some c) (by simp)
      exact ⟨_, _, fun s hs => exec_cbcd_of_chainInput (hcin s hs)⟩
    | _ => cases hcbc

/-- A CBC instruction with its own iv completes, with one byte and one value of `CV` for all states. -/
theorem exec_of_own_iv {i : Instr} (hcbc : isCbc i = true) (hiv : chainsFromCV i = false) :
    ∃ b c : Byte, ∀ s : State, exec i s = .next ((s.respond b).writeCV c) := by
  cases i with
  | cbce d k iv | cbcd d k iv =>
    cases iv with
    | none => cases hiv
    | some v => exact ⟨_, _, fun _ => rfl⟩
  | _ => cases hcbc

/-- A run answers with the byte of its first instruction, then with the responses of the rest. -/
theorem runInstrs_cons_rsp {i : Instr} {L : List Instr} {s u : State} {b : Byte} {r : List Byte}
    (hexec : exec i s = .next u) (hb : u.rsp = s.rsp ++ [b])
    (hrun : ∃ t, runInstrs L u = .next t ∧ t.rsp = u.rsp ++ r) :
    ∃ t, runInstrs (i :: L) s = .next t ∧ t.rsp = s.rsp ++ b :: r := by
  obtain ⟨t, ht, hrsp⟩ := hrun
  exact ⟨t, runInstrs_cons_next_iff.mpr ⟨u, hexec, ht⟩, by simp [hrsp, hb]⟩

/-- With a value in `CV` every run completes, and that value alone fixes its responses. -/
theorem runInstrs_of_cv_value (L : List Instr) (c : Byte) :
    ∃ r : List Byte, r.length = L.length ∧
      ∀ s : State, s.cv = some c → ∃ t, runInstrs L s = .next t ∧ t.rsp = s.rsp ++ r := by
  induction L generalizing c with
  | nil => exact ⟨[], rfl, fun s _ => ⟨s, rfl, by simp⟩⟩
  | cons i L ih =>
    obtain ⟨b, c', hexec⟩ := exec_of_cv_value i c
    obtain ⟨r, hlen, hrun⟩ := ih c'
    exact ⟨b :: r, by simp [hlen], fun s hs => runInstrs_cons_rsp (hexec s hs) rfl (hrun _ rfl)⟩

/-- A run whose first CBC instruction brings its own iv completes, with the same responses from every
state: up to that instruction nothing reads `CV`, and it leaves the same value there. -/
theorem runInstrs_of_own_iv (L : List Instr)
    (hL : ∀ x, L.find? isCbc = some x → chainsFromCV x = false) :
    ∃ r : List Byte, r.length = L.length ∧
      ∀ s : State, ∃ t, runInstrs L s = .next t ∧ t.rsp = s.rsp ++ r := by
  induction L with
  | nil => exact ⟨[], rfl, fun s => ⟨s, rfl, by simp⟩⟩
  | cons i L ih =>
    cases hcbc : isCbc i with
    | false =>
      obtain ⟨b, hexec⟩ := exec_of_not_isCbc hcbc
      obtain ⟨r, hlen, hrun⟩ := ih fun x hx => hL x (by simp [hcbc, hx])
      exact ⟨b :: r, by simp [hlen], fun s => runInstrs_cons_rsp (hexec s) rfl (hrun _)⟩
    | true =>
      obtain ⟨b, c, hexec⟩ := exec_of_own_iv hcbc (hL i (by simp [hcbc]))
      obtain ⟨r, hlen, hrun⟩ := runInstrs_of_cv_value L c
      exact ⟨b :: r, by simp [hlen], fun s => runInstrs_cons_rsp (hexec s) rfl (hrun _ rfl)⟩

/-- Settles O47: the responses `runInstrs_of_own_iv` gives are those of both states. -/
theorem callIsIndependentOfHistory : Obligations.CallIsIndependentOfHistory := by
  intro L s s' hL
  obtain ⟨r, hlen, hrun⟩ := runInstrs_of_own_iv L hL
  obtain ⟨t, ht, hrsp⟩ := hrun s
  obtain ⟨t', ht', hrsp'⟩ := hrun s'
  exact ⟨t, t', r, ht, ht', hrsp, hrsp', hlen⟩

end Sys2Proof.Machine
end

