-- ==== Sys2Proof/Proofs/LegalWords.lean ====
section
/-! SUPPORT. The fields of a request word, which words decode, and that the others are refused
(spec 30_encoding.md R36 to R44). -/

namespace Sys2Proof

/-! ### The fields of a word -/

/-- A field of a field is a field. -/
theorem extractLsb'_extractLsb'_add {n start len start' len' : Nat} (w : BitVec n)
    (h : start' + len' ≤ len) :
    (w.extractLsb' start len).extractLsb' start' len' = w.extractLsb' (start + start') len' := by
  apply BitVec.eq_of_getLsbD_eq
  intro j hj
  have hlen : start' + j < len := by omega
  simp [hj, hlen, Nat.add_assoc]

/-- The operation code is the upper part of the top seven bits. -/
theorem Req.ofWord_op (w : ReqWord) :
    (Req.ofWord w).op = (w.extractLsb' 49 7).extractLsb' 3 4 :=
  (extractLsb'_extractLsb'_add w (start' := 3) (len' := 4) (by decide)).symm

/-- The reserved bits are the lower part of the top seven bits. -/
theorem Req.ofWord_reserved (w : ReqWord) :
    (Req.ofWord w).reserved = (w.extractLsb' 49 7).extractLsb' 0 3 :=
  (extractLsb'_extractLsb'_add w (start' := 0) (len' := 3) (by decide)).symm

/-- `REQ[55:53]` is `op[3:1]` (R39). -/
theorem Req.ofWord_op_unit (w : ReqWord) :
    (Req.ofWord w).op.extractLsb' 1 3 = w.extractLsb' 53 3 :=
  extractLsb'_extractLsb'_add w (start' := 1) (len' := 3) (by decide)

/-- `REQ[52]` is `op[0]` (R39). -/
theorem Req.ofWord_op_direction (w : ReqWord) :
    (Req.ofWord w).op.getLsbD 0 = w.getLsbD 52 := by
  simp [Req.ofWord]

/-- The first-beat flag as bit 48 of the word. -/
theorem Req.ofWord_first (w : ReqWord) : (Req.ofWord w).first = BitVec.ofBool (w.getLsbD 48) := by
  apply BitVec.eq_of_getLsbD_eq
  intro j hj
  obtain rfl : j = 0 := by omega
  simp [Req.ofWord]

/-! ### Which words decode -/

/-- The codes 2 to B, and no others, are operations (R38). -/
theorem Req.exists_operation_iff (r : Req) :
    (∃ i, r.operation = .ok i) ↔ 0x2 ≤ r.op.toNat ∧ r.op.toNat ≤ 0xB := by
  constructor
  · rintro ⟨i, hi⟩
    rcases Req.operation_eq_ok hi with h | h | h | h | h | h | h | h | h | h <;> simp [h.1]
  · intro hop
    cases hr : r.operation with
    | ok i => exact ⟨i, rfl⟩
    | error e =>
      obtain ⟨-, hcode⟩ := Req.operation_eq_error hr
      omega

/-- A code outside 2 to B is the reason of its own refusal. -/
theorem Req.operation_of_unassigned {r : Req} (h : ¬ (0x2 ≤ r.op.toNat ∧ r.op.toNat ≤ 0xB)) :
    r.operation = .error (.opCode r.op) := by
  cases hr : r.operation with
  | ok i => exact absurd ((Req.exists_operation_iff r).mp ⟨i, hr⟩) h
  | error e =>
    obtain ⟨rfl, -⟩ := Req.operation_eq_error hr
    rfl

/-- A word decodes when its reserved bits are zero and its code is assigned (R40, R42). -/
theorem exists_decode_iff (w : ReqWord) :
    (∃ i, decode w = .ok i) ↔ (Req.ofWord w).reserved = 0#3 ∧
      0x2 ≤ (Req.ofWord w).op.toNat ∧ (Req.ofWord w).op.toNat ≤ 0xB := by
  rw [← Req.exists_operation_iff, decode_eq]
  split <;> simp [*]

/-- The mask and range form of the check accepts the words that decode (R42). -/
theorem legalWord_iff (w : ReqWord) : legalWord w = true ↔ ∃ i, decode w = .ok i := by
  rw [exists_decode_iff, legalWord, Bool.and_eq_true, reservedClear_iff, opAssigned,
    shift_toNat_eq_op]
  simp

/-- A word with a reserved bit set does not decode, whatever its code (R44). -/
theorem decode_of_reserved {w : ReqWord} (h : (Req.ofWord w).reserved ≠ 0#3) :
    decode w = .error (.reservedBits (Req.ofWord w).reserved) := by
  rw [decode_eq, if_neg h]

/-- A word with reserved bits zero and an unassigned code does not decode (R44). -/
theorem decode_of_unassigned {w : ReqWord} (hres : (Req.ofWord w).reserved = 0#3)
    (hop : ¬ (0x2 ≤ (Req.ofWord w).op.toNat ∧ (Req.ofWord w).op.toNat ≤ 0xB)) :
    decode w = .error (.opCode (Req.ofWord w).op) := by
  rw [decode_eq, if_pos hres, Req.operation_of_unassigned hop]

/-- The six unassigned codes lie outside 2 to B. -/
theorem not_assigned_of_mem : ∀ op ∈ [0b0000#4, 0b0001#4, 0b1100#4, 0b1101#4, 0b1110#4, 0b1111#4],
    ¬ (0x2 ≤ op.toNat ∧ op.toNat ≤ 0xB) := by
  decide

/-- Settles O5: the two refusals are the two ways a word does not decode. -/
theorem illegalRequestIsRefused : Obligations.IllegalRequestIsRefused := by
  refine ⟨fun s w rest hs hres => ?_, fun s w rest hs hres hop => ?_, fun w i hw => ?_,
    fun i => ⟨fun hw => ?_, fun hw => ?_⟩⟩
  · exact Machine.step_of_illegal_request hs (decode_of_reserved hres)
  · exact Machine.step_of_illegal_request hs (decode_of_unassigned hres (not_assigned_of_mem _ hop))
  · obtain ⟨hres, hop⟩ := (exists_decode_iff w).mp ⟨i, hw⟩
    exact ⟨by simpa [reservedClear] using (reservedClear_iff w).mpr hres, hop⟩
  · exact absurd ((legalWord_iff _).mpr ⟨i, hw⟩) (by decide)
  · exact absurd ((legalWord_iff _).mpr ⟨i, hw⟩) (by decide)

/-- Settles O1: eleven literal words, each decoded by evaluation. -/
theorem writtenOutWordsDecode : Obligations.WrittenOutWordsDecode := by
  unfold Obligations.WrittenOutWordsDecode
  decide

end Sys2Proof
end

