-- ==== Sys2Proof/Proofs/Canonical.lean ====
section
/-! SUPPORT. The canonical form of a request: its fields with those its operation ignores set to zero
(spec 30_encoding.md R39, R40, R44 to R46). -/

namespace Sys2Proof

/-- Settles O2: `decode_encode`, a split on the operation and, for CBC, on the iv operand. -/
theorem decodeOfEncodeIsIdentity : Obligations.DecodeOfEncodeIsIdentity := decode_encode

/-! ### The canonical fields -/

/-- The fields of a request with those that its code ignores set to zero (R40, R46). -/
def Req.canonical (r : Req) : Req :=
  if r.op.toNat ≤ 0x5 then { r with first := 0#1, key := 0#32, iv := 0#8 }
  else if r.op.toNat ≤ 0x9 then { r with first := 0#1, iv := 0#8 }
  else if r.first = 1#1 then r
  else { r with iv := 0#8 }

@[simp] theorem Req.canonical_op (r : Req) : r.canonical.op = r.op := by
  unfold Req.canonical
  split_ifs <;> rfl

@[simp] theorem Req.canonical_reserved (r : Req) : r.canonical.reserved = r.reserved := by
  unfold Req.canonical
  split_ifs <;> rfl

/-- The CBC codes use the first-beat flag (R40). -/
theorem Req.canonical_first {r : Req} (hA : 0xA ≤ r.op.toNat) : r.canonical.first = r.first := by
  rw [Req.canonical, if_neg (by omega), if_neg (by omega)]
  split <;> rfl

/-- A CBC request with `first = 1` uses every field (R40). -/
theorem Req.canonical_of_first {r : Req} (hA : 0xA ≤ r.op.toNat) (hf : r.first = 1#1) :
    r.canonical = r := by
  rw [Req.canonical, if_neg (by omega), if_neg (by omega), if_pos hf]

/-- Requests that agree on the fields their code uses have one canonical form. -/
theorem Req.canonical_congr {r r' : Req} (hop : r.op = r'.op) (hres : r.reserved = r'.reserved)
    (hdin : r.din = r'.din) (hkey : 0x6 ≤ r.op.toNat → r.key = r'.key)
    (hfirst : 0xA ≤ r.op.toNat → r.first = r'.first)
    (hiv : 0xA ≤ r.op.toNat → r.first = 1#1 → r.iv = r'.iv) : r.canonical = r'.canonical := by
  obtain ⟨op, res, first, key, iv, din⟩ := r
  obtain ⟨op', res', first', key', iv', din'⟩ := r'
  cases hop; cases hres; cases hdin
  by_cases h5 : op.toNat ≤ 0x5
  · simp [Req.canonical, h5]
  · obtain rfl : key = key' := hkey (by simp only; omega)
    by_cases h9 : op.toNat ≤ 0x9
    · simp [Req.canonical, h5, h9]
    · have hA : 0xA ≤ op.toNat := by omega
      obtain rfl : first = first' := hfirst hA
      by_cases hf : first = 1#1
      · obtain rfl : iv = iv' := hiv hA hf
        rfl
      · simp [Req.canonical, h5, h9, hf]

/-! ### Decoding and the canonical form -/

/-- An instruction's own fields are the canonical form of all the fields it is read from (R46). -/
theorem Req.toReq_of_operation {r : Req} {i : Instr} (hres : r.reserved = 0#3)
    (h : r.operation = .ok i) : i.toReq = r.canonical := by
  obtain ⟨op, res, first, key, iv, din⟩ := r
  cases hres
  rcases Req.operation_eq_ok h with ⟨rfl, rfl⟩ | ⟨rfl, rfl⟩ | ⟨rfl, rfl⟩ | ⟨rfl, rfl⟩ | ⟨rfl, rfl⟩ |
    ⟨rfl, rfl⟩ | ⟨rfl, rfl⟩ | ⟨rfl, rfl⟩ | ⟨rfl, rfl⟩ | ⟨rfl, rfl⟩
  iterate 8 rfl
  -- the two CBC codes, where the first-beat flag says whether iv is used
  all_goals rcases BitVec.eq_zero_or_eq_one first with rfl | rfl <;> rfl

/-- The fields of a word that decodes have the instruction's own fields as canonical form. -/
theorem toReq_of_decode {w : ReqWord} {i : Instr} (h : decode w = .ok i) :
    i.toReq = (Req.ofWord w).canonical := by
  obtain ⟨hres, hi⟩ := decode_eq_ok h
  exact Req.toReq_of_operation hres hi

/-- Encoding is the inverse of decoding up to the ignored fields. -/
theorem encode_of_decode {w : ReqWord} {i : Instr} (h : decode w = .ok i) :
    encode i = (Req.ofWord w).canonical.toWord := by
  rw [encode, toReq_of_decode h]

/-- Clearing the ignored fields changes nothing that the decoder answers, refusals included (R40). -/
theorem decode_canonical (w : ReqWord) : decode (Req.ofWord w).canonical.toWord = decode w := by
  cases h : decode w with
  | ok i => rw [← encode_of_decode h, decode_encode]
  | error e =>
    rw [← h]
    by_cases hres : (Req.ofWord w).reserved = 0#3
    · have hop : ¬ (0x2 ≤ (Req.ofWord w).op.toNat ∧ (Req.ofWord w).op.toNat ≤ 0xB) := fun hop => by
        obtain ⟨i, hi⟩ := (exists_decode_iff w).mpr ⟨hres, hop⟩
        simp [hi] at h
      rw [decode_of_unassigned hres hop, decode_of_unassigned (by simpa [Req.ofWord_toWord])
        (by rwa [Req.ofWord_toWord, Req.canonical_op])]
      simp [Req.ofWord_toWord]
    · rw [decode_of_reserved hres, decode_of_reserved (by simpa [Req.ofWord_toWord])]
      simp [Req.ofWord_toWord]

/-- Words whose fields have one canonical form decode alike (R40). -/
theorem decode_congr {w w' : ReqWord}
    (h : (Req.ofWord w).canonical = (Req.ofWord w').canonical) : decode w = decode w' := by
  rw [← decode_canonical w, h, decode_canonical w']

/-! ### The canonical form as a mask -/

/-- The fields of a masked word are the masked fields. -/
theorem Req.ofWord_and (w m : ReqWord) : Req.ofWord (w &&& m) =
    ⟨(Req.ofWord w).op &&& (Req.ofWord m).op, (Req.ofWord w).reserved &&& (Req.ofWord m).reserved,
      (Req.ofWord w).first &&& (Req.ofWord m).first, (Req.ofWord w).key &&& (Req.ofWord m).key,
      (Req.ofWord w).iv &&& (Req.ofWord m).iv, (Req.ofWord w).din &&& (Req.ofWord m).din⟩ := by
  simp only [Req.ofWord, BitVec.extractLsb'_and]

section
variable {w : ReqWord}

theorem ignoredBits_of_le_five (h : (Req.ofWord w).op.toNat ≤ 0x5) :
    ignoredBits w = 0x01FFFFFFFFFF00#56 := by
  simp only [ignoredBits, shift_toNat_eq_op, if_pos h]

theorem ignoredBits_of_block (h6 : 0x6 ≤ (Req.ofWord w).op.toNat)
    (h9 : (Req.ofWord w).op.toNat ≤ 0x9) : ignoredBits w = 0x0100000000FF00#56 := by
  simp only [ignoredBits, shift_toNat_eq_op]
  rw [if_neg (by omega), if_pos h9]

theorem ignoredBits_of_later (hA : 0xA ≤ (Req.ofWord w).op.toNat) (hf : w.getLsbD 48 = false) :
    ignoredBits w = 0x0000000000FF00#56 := by
  simp only [ignoredBits, shift_toNat_eq_op]
  rw [if_neg (by omega), if_neg (by omega), hf, if_neg Bool.false_ne_true]

theorem ignoredBits_of_first (hA : 0xA ≤ (Req.ofWord w).op.toNat) (hf : w.getLsbD 48 = true) :
    ignoredBits w = 0#56 := by
  simp only [ignoredBits, shift_toNat_eq_op]
  rw [if_neg (by omega), if_neg (by omega), if_pos hf]

end

/-- Setting the ignored fields to zero is clearing the ignored bits (R40, R46). -/
theorem toWord_canonical (w : ReqWord) :
    (Req.ofWord w).canonical.toWord = w &&& ~~~ignoredBits w := by
  apply Req.ofWord_injective
  rw [Req.ofWord_toWord, Req.canonical]
  split_ifs with h5 h9 hf
  · have hmask : Req.ofWord (~~~0x01FFFFFFFFFF00#56) =
        ⟨BitVec.allOnes 4, BitVec.allOnes 3, 0#1, 0#32, 0#8, BitVec.allOnes 8⟩ := rfl
    rw [ignoredBits_of_le_five h5, Req.ofWord_and, hmask]
    simp only [BitVec.and_allOnes, BitVec.and_zero]
  · have hmask : Req.ofWord (~~~0x0100000000FF00#56) =
        ⟨BitVec.allOnes 4, BitVec.allOnes 3, 0#1, BitVec.allOnes 32, 0#8, BitVec.allOnes 8⟩ := rfl
    rw [ignoredBits_of_block (by omega) h9, Req.ofWord_and, hmask]
    simp only [BitVec.and_allOnes, BitVec.and_zero]
  · rw [ignoredBits_of_first (by omega) ((Req.first_eq_one_iff w).mp hf), BitVec.not_zero,
      BitVec.and_allOnes]
  · have hmask : Req.ofWord (~~~0x0000000000FF00#56) = ⟨BitVec.allOnes 4, BitVec.allOnes 3,
        BitVec.allOnes 1, BitVec.allOnes 32, 0#8, BitVec.allOnes 8⟩ := rfl
    have hlater : w.getLsbD 48 = false :=
      Bool.eq_false_iff.mpr fun h => hf ((Req.first_eq_one_iff w).mpr h)
    rw [ignoredBits_of_later (by omega) hlater, Req.ofWord_and, hmask]
    simp only [BitVec.and_allOnes, BitVec.and_zero]

/-- Encoding what a word decodes to clears its ignored bits (R40, R46). -/
theorem encode_of_decode_eq_mask {w : ReqWord} {i : Instr} (h : decode w = .ok i) :
    encode i = w &&& ~~~ignoredBits w := by
  rw [encode_of_decode h, toWord_canonical]

/-- The word of an instruction is zero in every bit its operation ignores (R46). -/
theorem encode_and_ignoredBits (i : Instr) : encode i &&& ignoredBits (encode i) = 0#56 := by
  have hkept : encode i = encode i &&& ~~~ignoredBits (encode i) :=
    encode_of_decode_eq_mask (decode_encode i)
  calc encode i &&& ignoredBits (encode i)
      = encode i &&& ~~~ignoredBits (encode i) &&& ignoredBits (encode i) := by rw [← hkept]
    _ = 0#56 := by rw [BitVec.and_assoc, BitVec.not_and_self]; exact BitVec.and_zero

/-- Settles O3: one mask, `encode_of_decode_eq_mask`, at each group of codes. -/
theorem encodeOfDecodeClearsIgnoredFields : Obligations.EncodeOfDecodeClearsIgnoredFields := by
  intro w i hw
  rw [encode_of_decode_eq_mask hw]
  refine ⟨fun h5 => ?_, fun h6 h9 => ?_, fun hA hf => ?_, fun hA hf => ?_, ?_⟩
  · rw [ignoredBits_of_le_five h5]; rfl
  · rw [ignoredBits_of_block h6 h9]; rfl
  · rw [ignoredBits_of_later hA hf]; rfl
  · rw [ignoredBits_of_first hA hf, BitVec.not_zero, BitVec.and_allOnes]
  · rw [← encode_of_decode_eq_mask hw, Machine.disassemble, Machine.disassemble, hw, decode_encode]

/-- Settles O4: `legalWord_iff`, and by it and `encode_and_ignoredBits` encoded words are canonical. -/
theorem decoderAcceptsExactlyLegalWords : Obligations.DecoderAcceptsExactlyLegalWords := by
  refine ⟨fun w => (legalWord_iff w).symm, fun i => ?_⟩
  rw [canonicalWord, (legalWord_iff _).mpr ⟨i, decode_encode i⟩, encode_and_ignoredBits]
  rfl

/-- A CBC word with `first = 1` is the only word of its instruction (R40). -/
theorem eq_encode_of_first {w : ReqWord} {i : Instr} (h : decode w = .ok i)
    (hA : 0xA ≤ i.toReq.op.toNat) (hf : i.toReq.first = 1#1) : w = encode i := by
  rw [toReq_of_decode h, Req.canonical_op] at hA
  rw [toReq_of_decode h, Req.canonical_first hA] at hf
  rw [encode_of_decode h, Req.canonical_of_first hA hf, Req.toWord_ofWord]

/-- Settles O6: the step sees of the word what the decoder reads, which is its canonical form. -/
theorem ignoredFieldsHaveNoEffect : Obligations.IgnoredFieldsHaveNoEffect := by
  refine ⟨fun w w' s rest htop hdin hkey hfirst hiv => ?_, fun w w' i hA hf hw hw' => ?_,
    exists_decode_iff, encode_and_ignoredBits⟩
  · have hop : (Req.ofWord w).op = (Req.ofWord w').op := by
      rw [Req.ofWord_op, htop, ← Req.ofWord_op]
    have hres : (Req.ofWord w).reserved = (Req.ofWord w').reserved := by
      rw [Req.ofWord_reserved, htop, ← Req.ofWord_reserved]
    have hdecode : decode w = decode w' := decode_congr <|
      Req.canonical_congr hop hres hdin hkey
        (fun hA => by rw [Req.ofWord_first, Req.ofWord_first, hfirst hA])
        (fun hA hf => hiv hA ((Req.first_eq_one_iff w).mp hf))
    rw [Machine.step_of_inputs_cons rfl, Machine.step_of_inputs_cons rfl]
    simp only [Machine.doAction, Machine.execRequest, hdecode]
  · rw [← Req.first_eq_one_iff] at hf
    have hreq : i.toReq = Req.ofWord w := by rw [toReq_of_decode hw, Req.canonical_of_first hA hf]
    rw [eq_encode_of_first hw, eq_encode_of_first hw'] <;> simpa only [hreq]

/-! ### The structure of the operation code -/

/-- A unit value that selects nothing belongs to unassigned codes only (R39). -/
theorem not_assigned_of_unit : ∀ op : BitVec 4,
    op.extractLsb' 1 3 = 0b000#3 ∨ op.extractLsb' 1 3 = 0b110#3 ∨ op.extractLsb' 1 3 = 0b111#3 →
    ¬ (0x2 ≤ op.toNat ∧ op.toNat ≤ 0xB) := by
  decide

/-- Settles O7: a word that decodes has its instruction's own code. -/
theorem operationCodeSelectsUnitAndDirection :
    Obligations.OperationCodeSelectsUnitAndDirection := by
  refine ⟨fun w i hw => ?_, fun w i hunit hw => ?_⟩
  · have hop : (Req.ofWord w).op = i.toReq.op := by rw [toReq_of_decode hw, Req.canonical_op]
    rw [← Req.ofWord_op_unit, ← Req.ofWord_op_direction, hop]
    cases i with
    | cbce d k iv | cbcd d k iv => cases iv <;> simp [Instr.toReq]
    | _ => simp [Instr.toReq]
  · rw [← Req.ofWord_op_unit] at hunit
    exact not_assigned_of_unit _ hunit ((exists_decode_iff w).mp ⟨i, hw⟩).2

end Sys2Proof
end

