-- ==== Sys2Proof/Proofs/RequestOutcome.lean ====
section
/-! SUPPORT. The outcomes of one request, and the calls that are one request (spec 30_encoding.md R47 to
R49). -/

namespace Sys2Proof.Machine

/-- An instruction that has a chaining input where it needs one completes with one response byte, and
outside the CBC controller leaves `CV` (R22, R49). -/
theorem exec_next_of_not_refused {i : Instr} {s : State} (h : chainsFromCV i = false ∨ s.cv ≠ none) :
    ∃ (b : Byte) (c : Option Byte), exec i s = .next { s with cv := c, rsp := s.rsp ++ [b] } ∧
      (isCbc i = false → c = s.cv) := by
  rcases exec_cases i s with ⟨hi, hs, -⟩ | ⟨-, b, hnext⟩
  · simp [hi, hs] at h
  · refine ⟨b, _, hnext, fun hcbc => ?_⟩
    cases i with
    | cbce | cbcd => cases hcbc
    | _ => rfl

/-- Settles O10: the three outcomes of a step on a request are those of decoding and of `exec`. -/
theorem requestHasThreeOutcomes : Obligations.RequestHasThreeOutcomes := by
  intro s w rest hs
  refine ⟨fun why hw => step_of_illegal_request hs hw, fun i hw hi hcv => ?_, fun i hw hi => ?_⟩
  · rw [step_of_request hs hw]
    exact exec_refused_of_chainsFromCV hi hcv
  · obtain ⟨b, c, hnext, hkeep⟩ := exec_next_of_not_refused (s := { s with inputs := rest }) hi
    have hstep := step_of_request hs hw
    exact ⟨b, c, hstep, hstep.trans hnext, hkeep⟩

/-- Two requests that each answer one byte and do nothing else. -/
theorem runInstrs_pair {i j : Instr} {b c : Byte}
    (hi : ∀ s : State, exec i s = .next (s.respond b))
    (hj : ∀ s : State, exec j s = .next (s.respond c)) (s : State) :
    runInstrs [i, j] s = .next { s with rsp := s.rsp ++ [b, c] } := by
  simp [runInstrs, hi, hj, State.respond]

/-- Settles O37: the second request of each pair answers by its inverse law, `blockD_blockE`,
`sboxi_sbox` or `pboxi_pbox`. -/
theorem oneRequestCallsRoundTrip : Obligations.OneRequestCallsRoundTrip := by
  intro m k s
  have hdecb (s : State) : exec (.decb (blockE m k) k) s = .next (s.respond m) := by
    rw [exec, execDecb, blockD_blockE]
  have hsboxi (s : State) : exec (.sboxi (sbox m)) s = .next (s.respond m) := by
    rw [exec, execSboxi, sboxi_sbox]
  have hpboxi (s : State) : exec (.pboxi (pbox m)) s = .next (s.respond m) := by
    rw [exec, execPboxi, pboxi_pbox]
  exact ⟨runInstrs_pair (fun _ => rfl) hdecb s, runInstrs_pair (fun _ => rfl) hsboxi s,
    runInstrs_pair (fun _ => rfl) hpboxi s⟩

end Sys2Proof.Machine
end

