-- ==== Sys2Proof/Proofs/RequestText.lean ====
section
/-! SUPPORT. The text of a request: what the text of an instruction is read as (spec 30_encoding.md R45,
R46; log entry 6). -/

namespace Sys2Proof.Machine

/-! ### Numbers -/

/-- The digit written for a nibble is read as that nibble. -/
theorem digitValue_hexChar : ∀ n : Nibble, digitValue (hexChar n) = some n.toNat := by decide

/-- Reading the digit of the nibble at bit `p` extends the value of the bits above by that nibble. -/
theorem digits_hexChar {w acc : Nat} (v : BitVec w) (p : Nat) {cs : List Char}
    (hacc : v.toNat >>> (p + 4) = acc) :
    digits 16 (hexChar (v.extractLsb' p 4) :: cs) acc = digits 16 cs (v.toNat >>> p) := by
  have hvalue : acc * 16 + (v.extractLsb' p 4).toNat = v.toNat >>> p := by
    rw [← hacc, BitVec.extractLsb'_toNat, Nat.shiftRight_add, Nat.shiftRight_eq_div_pow _ 4]
    exact Nat.div_add_mod' _ _
  rw [digits, digitValue_hexChar]
  simp only [if_pos (v.extractLsb' p 4).isLt, hvalue]

theorem number_byteText (b : Byte) : number (byteText b) = some b.toNat :=
  (digits_hexChar b 4 (Nat.shiftRight_eq_zero _ _ b.isLt)).trans (digits_hexChar b 0 rfl)

theorem number_keyText (k : Key32) : number (keyText k) = some k.toNat := by
  refine (digits_hexChar k 28 (Nat.shiftRight_eq_zero _ _ k.isLt)).trans ?_
  iterate 7 refine (digits_hexChar k _ rfl).trans ?_
  rfl

theorem fit_toNat {w : Nat} (v : BitVec w) : fit w v.toNat = some v := by
  simp [fit, v.isLt]

/-! ### Tokens -/

/-- A character that outside quotes can only be part of a word. -/
def wordChar (c : Char) : Bool := c ≠ ';' ∧ c ≠ ',' ∧ c ≠ ' ' ∧ c ≠ '\t' ∧ c.toNat ≠ 39

/-- A text that is one word. -/
def IsWord (cs : List Char) : Prop := cs ≠ [] ∧ cs.all wordChar = true

/-- A hexadecimal number is one word. -/
theorem isWord_hexadecimal (ns : List Nibble) : IsWord ('0' :: 'x' :: ns.map hexChar) := by
  have hdigit : ∀ n : Nibble, wordChar (hexChar n) = true := by decide
  have hstart : wordChar '0' = true ∧ wordChar 'x' = true := by decide
  simp [IsWord, hstart, hdigit]

theorem isWord_byteText (b : Byte) : IsWord (byteText b) := isWord_hexadecimal [_, _]

theorem isWord_keyText (k : Key32) : IsWord (keyText k) :=
  isWord_hexadecimal [_, _, _, _, _, _, _, _]

theorem isWord_mnemonicText (i : Instr) : IsWord (mnemonicText i) := by
  cases i with
  | cbce d k iv | cbcd d k iv => cases iv <;> exact ⟨List.cons_ne_nil _ _, rfl⟩
  | _ => exact ⟨List.cons_ne_nil _ _, rfl⟩

/-- The characters of a word are collected, read backwards. -/
theorem tokens_word_append {cs : List Char} (h : cs.all wordChar = true) (rest acc : List Char) :
    tokens (cs ++ rest) (.plain acc) = tokens rest (.plain (cs.reverse ++ acc)) := by
  induction cs generalizing acc with
  | nil => rfl
  | cons c cs ih =>
    rw [List.all_cons, Bool.and_eq_true] at h
    obtain ⟨hc, hcs⟩ := h
    have hplain : tokens (c :: (cs ++ rest)) (.plain acc) =
        tokens (cs ++ rest) (.plain (c :: acc)) := by
      simp only [wordChar, decide_eq_true_eq] at hc
      simp [tokens, hc]
    simp [hplain, ih hcs]

/-- A blank ends the word in progress. -/
theorem tokens_blank (acc rest : List Char) : tokens (' ' :: rest) (.plain acc) =
    (tokens rest (.plain [])).map (flushWord acc) := rfl

/-- A comma ends the word in progress; the blank behind it ends none. -/
theorem tokens_comma_blank (acc rest : List Char) : tokens (',' :: ' ' :: rest) (.plain acc) =
    (tokens rest (.plain [])).map fun ts => flushWord acc (.comma :: ts) := by
  have hcomma : tokens (',' :: ' ' :: rest) (.plain acc) =
      (tokens (' ' :: rest) (.plain [])).map fun ts => flushWord acc (.comma :: ts) := rfl
  rw [hcomma, tokens_blank, Option.map_map]
  rfl

section
variable {cs : List Char} (h : IsWord cs)
include h

theorem flushWord_reverse (ts : List Token) : flushWord (cs.reverse ++ []) ts = .word cs :: ts := by
  simp [flushWord, h.1]

/-- A word at the end of the line. -/
theorem tokens_word : tokens cs (.plain []) = some [.word cs] := by
  rw [← List.append_nil cs, tokens_word_append h.2, tokens, flushWord_reverse h, List.append_nil]

/-- A word before a blank. -/
theorem tokens_word_blank (rest : List Char) : tokens (cs ++ ' ' :: rest) (.plain []) =
    (tokens rest (.plain [])).map (.word cs :: ·) := by
  simp only [tokens_word_append h.2, tokens_blank, funext (flushWord_reverse h)]

/-- A word before a comma and a blank. -/
theorem tokens_word_comma (rest : List Char) : tokens (cs ++ ',' :: ' ' :: rest) (.plain []) =
    (tokens rest (.plain [])).map (.word cs :: .comma :: ·) := by
  simp only [tokens_word_append h.2, tokens_comma_blank, flushWord_reverse h]

/-- A line of a mnemonic and operands. -/
theorem assembleLine_word_blank (rest : List Char) : assembleLine (cs ++ ' ' :: rest) =
    (((tokens rest (.plain [])).bind operandList).bind (assembleRequest cs)).map fun i => [i] := by
  rw [assembleLine, tokens_word_blank h]
  cases tokens rest (.plain []) <;> rfl

end

/-! ### Operands -/

/-- The values of the operands, in the order in which they are written (R45). -/
def operandNumbers : Instr → List Nat
  | .sbox d | .sboxi d | .pbox d | .pboxi d => [d.toNat]
  | .encb d k | .decb d k | .ecbe d k | .ecbd d k => [d.toNat, k.toNat]
  | .cbce d k none | .cbcd d k none => [d.toNat, k.toNat]
  | .cbce d k (some v) | .cbcd d k (some v) => [d.toNat, k.toNat, v.toNat]

/-- The text of the operands is read as their values. -/
theorem operandList_operandText (i : Instr) :
    (tokens (operandText i) (.plain [])).bind operandList = some (operandNumbers i) := by
  have hdin (d : Byte) : (tokens (byteText d) (.plain [])).bind operandList = some [d.toNat] := by
    simp [tokens_word (isWord_byteText d), operandList, operandValue, number_byteText]
  have hkey (d : Byte) (k : Key32) :
      (tokens (byteText d ++ [',', ' '] ++ keyText k) (.plain [])).bind operandList =
        some [d.toNat, k.toNat] := by
    simp [tokens_word_comma (isWord_byteText d), tokens_word (isWord_keyText k), operandList,
      operandValue, number_byteText, number_keyText]
  have hiv (d : Byte) (k : Key32) (v : Byte) :
      (tokens (byteText d ++ [',', ' '] ++ keyText k ++ [',', ' '] ++ byteText v)
        (.plain [])).bind operandList = some [d.toNat, k.toNat, v.toNat] := by
    simp [tokens_word_comma (isWord_byteText d), tokens_word_comma (isWord_keyText k),
      tokens_word (isWord_byteText v), operandList, operandValue, number_byteText, number_keyText]
  cases i with
  | sbox d | sboxi d | pbox d | pboxi d => exact hdin d
  | encb d k | decb d k | ecbe d k | ecbd d k => exact hkey d k
  | cbce d k iv | cbcd d k iv =>
    cases iv with
    | none => exact hkey d k
    | some v => exact hiv d k v

/-- The mnemonic and the values of the operands make up the instruction. -/
theorem assembleRequest_operandNumbers (i : Instr) :
    assembleRequest (mnemonicText i) (operandNumbers i) = some i := by
  have hdin (mk : Byte → Instr) (d : Byte) : withDin mk [d.toNat] = some (mk d) := by
    simp [withDin, fit_toNat]
  have hkey (mk : Byte → Key32 → Instr) (d : Byte) (k : Key32) :
      withKey mk [d.toNat, k.toNat] = some (mk d k) := by
    simp [withKey, fit_toNat]
  have hiv (mk : Byte → Key32 → Byte → Instr) (d : Byte) (k : Key32) (v : Byte) :
      withIv mk [d.toNat, k.toNat, v.toNat] = some (mk d k v) := by
    simp [withIv, fit_toNat]
  cases i with
  | sbox d | sboxi d | pbox d | pboxi d => exact hdin _ d
  | encb d k | decb d k | ecbe d k | ecbd d k => exact hkey _ d k
  | cbce d k iv | cbcd d k iv =>
    cases iv with
    | none => exact hkey _ d k
    | some v => exact hiv _ d k v

/-- Settles O8: the line is read as mnemonic and operands, and these make up the instruction. -/
theorem assemblingTextGivesInstruction : Obligations.AssemblingTextGivesInstruction := by
  intro i
  constructor
  · have hline : instrText i = mnemonicText i ++ ' ' :: operandText i := by simp [instrText]
    rw [hline, assembleLine_word_blank (isWord_mnemonicText i), operandList_operandText,
      Option.bind_some, assembleRequest_operandNumbers]
    rfl
  · rw [disassemble, decode_encode]
    rfl

end Sys2Proof.Machine
end

