-- ==== Sys2Proof/Proofs/Substitution.lean ====
section
/-! SUPPORT. The substitution pair (spec 40_sbox.md R50 to R55): what SBOX and SBOXI answer, that
they are inverse permutations, and that they are affine over exclusive-or. -/

namespace Sys2Proof

/-- A canonical word in the layout the spec writes it in, `bb kkkkkkkk vv dd` (R45): the top byte
holds the code, the reserved bits and the first-beat flag. -/
theorem Req.toWord_of_topByte {op : BitVec 4} {f : Bit} {b : Byte} (hb : op ++ 0#3 ++ f = b)
    (k : Key32) (v d : Byte) : (Req.mk op 0 f k v d).toWord = b ++ k ++ v ++ d := by
  subst hb
  rfl

end Sys2Proof

namespace Sys2Proof.Machine

/-! ### One nibble -/

/-- The nibble function as R50 writes it, on natural numbers. -/
theorem s4_toNat (x : Nibble) : (s4 x).toNat = (x.toNat + 1) * 7 % 16 := by
  simp [s4]

/-- The search of R51 finds the only preimage. -/
theorem s4_eq_iff {x y : Nibble} : s4 x = y ↔ x = s4i y := by
  constructor
  · rintro rfl
    exact (s4i_s4 x).symm
  · rintro rfl
    exact s4_s4i y

/-- The same on natural numbers: of those below 16 only `S4I(y)` solves the equation of R51. -/
theorem formula_eq_iff_eq_s4i {x : Nat} (hx : x < 16) (y : Nibble) :
    (x + 1) * 7 % 16 = y.toNat ↔ x = (s4i y).toNat := by
  obtain ⟨n, rfl⟩ : ∃ n : Nibble, n.toNat = x :=
    ⟨BitVec.ofNatLT x hx, BitVec.toNat_ofNatLT x hx⟩
  rw [← s4_toNat, BitVec.toNat_inj, BitVec.toNat_inj, s4_eq_iff]

/-- No nibble is a fixed point: `6x = -7 mod 16` has no solution, `6x` being even (R50). -/
theorem s4_ne_self (x : Nibble) : s4 x ≠ x := by
  intro h
  have hfix : (x.toNat + 1) * 7 % 16 = x.toNat := by rw [← s4_toNat, h]
  omega

/-! ### What the two operations answer -/

/-- Settles O16: each nibble of the response is `S4` of the nibble in its place. -/
theorem sboxSubstitutesEachNibble : Obligations.SboxSubstitutesEachNibble := by
  refine fun d s => ⟨sbox d, rfl, ?_, ?_, Req.toWord_of_topByte rfl _ _ _,
    fun f k v => decode_fields _ f k v d⟩
  · rw [sbox, onNibbles_high, s4_toNat]
  · rw [sbox, onNibbles_low, s4_toNat]

/-- Settles O17: each nibble of the response is `S4I` of the nibble in its place, the only solution
of the equation by `formula_eq_iff_eq_s4i`. -/
theorem sboxiFindsUniquePreimages : Obligations.SboxiFindsUniquePreimages := by
  refine fun d s => ⟨sboxi d, rfl, fun x hx => ?_, fun x hx => ?_,
    Req.toWord_of_topByte rfl _ _ _, fun f k v => decode_fields _ f k v d⟩
  · rw [sboxi, onNibbles_high, formula_eq_iff_eq_s4i hx]
  · rw [sboxi, onNibbles_low, formula_eq_iff_eq_s4i hx]

/-! ### Inverse permutations -/

/-- What undoes a nibble function undoes it on both nibbles of a byte. -/
theorem onNibbles_leftInverse {f g : Nibble → Nibble} (h : Function.LeftInverse f g) :
    Function.LeftInverse (onNibbles f) (onNibbles g) := by
  intro v
  rw [onNibbles_eq_append f, onNibbles_high, onNibbles_low, h, h]
  exact nibble_fields_append v

/-- Substitution undoes inverse substitution: the other order of R54. -/
@[simp] theorem sbox_sboxi (v : Byte) : sbox (sboxi v) = v := onNibbles_leftInverse s4_s4i v

/-- The byte seen to be added to the responses is the one the instruction answers. -/
theorem response_eq_of_exec {i : Instr} {s t : State} {b r : Byte}
    (hi : exec i s = .next (s.respond b)) (ht : exec i s = .next t) (hr : t.rsp = s.rsp ++ [r]) :
    r = b := by
  rw [hi] at ht
  cases ht
  simpa using hr.symm

/-- Settles O26: two functions that undo each other, on bytes and so on responses. -/
theorem substitutionRoundTrip : Obligations.SubstitutionRoundTrip := by
  refine ⟨fun m => ⟨sboxi_sbox m, sbox_sboxi m⟩,
    Function.bijective_iff_has_inverse.mpr ⟨sboxi, sboxi_sbox, sbox_sboxi⟩,
    Function.bijective_iff_has_inverse.mpr ⟨sbox, sbox_sboxi, sboxi_sbox⟩,
    fun m r s t later ht hr => ?_⟩
  obtain rfl : r = sbox m := response_eq_of_exec rfl ht hr
  rw [exec, execSboxi, sboxi_sbox]
  rfl

/-! ### Affine over exclusive-or -/

/-- Moving the lowest bit of each nibble to its top, on the byte and nibble by nibble. -/
theorem lowestBits_to_top : ∀ v : Byte, (v &&& 0x11#8) <<< 3 =
    ((v.extractLsb' 4 4 &&& 1#4) <<< 3) ++ ((v.extractLsb' 0 4 &&& 1#4) <<< 3) := by
  decide

/-- A nibble function of R55's exclusive-or form has that form on bytes. -/
theorem onNibbles_xor_form {f : Nibble → Nibble} {c : Nibble}
    (h : ∀ x, f x = x ^^^ c ^^^ ((x &&& 1#4) <<< 3)) (v : Byte) :
    onNibbles f v = v ^^^ (c ++ c) ^^^ ((v &&& 0x11#8) <<< 3) := by
  have hv : v.extractLsb' 4 4 ++ v.extractLsb' 0 4 = v := nibble_fields_append v
  calc onNibbles f v
      = (v.extractLsb' 4 4 ++ v.extractLsb' 0 4) ^^^ (c ++ c) ^^^ ((v &&& 0x11#8) <<< 3) := by
        rw [onNibbles_eq_append, h, h, lowestBits_to_top, BitVec.xor_append, BitVec.xor_append]
    _ = v ^^^ (c ++ c) ^^^ ((v &&& 0x11#8) <<< 3) := by rw [hv]

/-- SBOX as exclusive-ors (R55; 90_conflicts.md C5). -/
theorem sbox_xor_form (v : Byte) : sbox v = v ^^^ 0x77#8 ^^^ ((v &&& 0x11#8) <<< 3) :=
  onNibbles_xor_form s4_xor_form v

/-- SBOXI as exclusive-ors (R55). -/
theorem sboxi_xor_form (v : Byte) : sboxi v = v ^^^ 0xFF#8 ^^^ ((v &&& 0x11#8) <<< 3) :=
  onNibbles_xor_form s4i_xor_form v

/-- Three inputs XORed give their outputs XORed: moving bits is linear, and of the three constants
two cancel (R55). -/
theorem sbox_xor_three (a b c : Byte) : sbox a ^^^ sbox b ^^^ sbox c = sbox (a ^^^ b ^^^ c) := by
  have hlinear (x y : Byte) : ((x ^^^ y) &&& 0x11#8) <<< 3 =
      ((x &&& 0x11#8) <<< 3) ^^^ ((y &&& 0x11#8) <<< 3) := by
    rw [← BitVec.shiftLeft_xor_distrib]
    congr 1
    ext i hi
    simp [Bool.and_xor_distrib_right]
  rw [sbox_xor_form (a ^^^ b ^^^ c), hlinear, hlinear, sbox_xor_form, sbox_xor_form, sbox_xor_form]
  generalize (a &&& 0x11#8) <<< 3 = a', (b &&& 0x11#8) <<< 3 = b', (c &&& 0x11#8) <<< 3 = c'
  calc a ^^^ 0x77#8 ^^^ a' ^^^ (b ^^^ 0x77#8 ^^^ b') ^^^ (c ^^^ 0x77#8 ^^^ c')
      = a ^^^ b ^^^ c ^^^ 0x77#8 ^^^ (a' ^^^ b' ^^^ c') ^^^ (0x77#8 ^^^ 0x77#8) := by ac_rfl
    _ = a ^^^ b ^^^ c ^^^ 0x77#8 ^^^ (a' ^^^ b' ^^^ c') := by rw [BitVec.xor_self, BitVec.xor_zero]

/-- No byte is a fixed point, since its low nibble is none (R52). -/
theorem sbox_ne_self (v : Byte) : sbox v ≠ v := by
  intro h
  apply s4_ne_self (v.extractLsb' 0 4)
  rw [← onNibbles_low s4 v, ← sbox, h]

/-- Settles O29: the exclusive-or forms, and the two laws that R55 and R52 derive. -/
theorem substitutionIsAffine : Obligations.SubstitutionIsAffine :=
  ⟨fun v => ⟨sbox_xor_form v, sboxi_xor_form v⟩, sbox_xor_three, sbox_ne_self⟩

end Sys2Proof.Machine
end

