-- ==== Sys2Proof/Proofs/Permutation.lean ====
section
/-! SUPPORT. The permutation pair (spec 41_pbox.md R57 to R60): PBOX and PBOXI rotate a byte, and
the laws that follow from how far they rotate it. -/

namespace Sys2Proof.Machine

/-! ### Rotations of a byte -/

/-- `f` rotates a byte right by `n`: bit `j` of its answer is bit `(j + n) mod 8` of its operand. -/
def RotatesRight (f : Byte → Byte) (n : Nat) : Prop :=
  ∀ v : Byte, ∀ j < 8, (f v).getLsbD j = v.getLsbD ((j + n) % 8)

/-- Exchanging the low `k` bits of a byte with the bits above them rotates it right by `k`. -/
theorem getLsbD_extractLsb'_append (v : Byte) {k l j : Nat} (hkl : k + l = 8) (hj : j < 8) :
    (v.extractLsb' 0 k ++ v.extractLsb' k l).getLsbD j = v.getLsbD ((j + k) % 8) := by
  rw [BitVec.getLsbD_append, BitVec.getLsbD_extractLsb', BitVec.getLsbD_extractLsb']
  by_cases h : j < l
  · rw [if_pos h, decide_eq_true h, Bool.true_and, Nat.mod_eq_of_lt (by omega), Nat.add_comm]
  · have hwrap : (j + k) % 8 = 0 + (j - l) := by omega
    rw [if_neg h, decide_eq_true (by omega), Bool.true_and, hwrap]

/-- `PBOX(v)[j] = v[(j + 6) mod 8]` (R57). -/
theorem rotatesRight_pbox : RotatesRight pbox 6 := fun v _ hj =>
  pbox_eq_append v ▸ getLsbD_extractLsb'_append v rfl hj

/-- `PBOXI(v)[j] = v[(j + 2) mod 8]` (R58). -/
theorem rotatesRight_pboxi : RotatesRight pboxi 2 := fun v _ hj =>
  pboxi_eq_append v ▸ getLsbD_extractLsb'_append v rfl hj

/-- The nibble swap `{v[3:0], v[7:4]}` rotates by 4 (R60). -/
theorem rotatesRight_swap : RotatesRight (fun v => v.extractLsb' 0 4 ++ v.extractLsb' 4 4) 4 :=
  fun v _ hj => getLsbD_extractLsb'_append v rfl hj

theorem rotatesRight_id : RotatesRight id 0 := fun v _ hj =>
  congrArg v.getLsbD (Nat.mod_eq_of_lt hj).symm

/-- The positions that a rotation reads are those of the byte, in another order. -/
theorem map_add_mod_perm_range (n : Nat) :
    ((List.range 8).map fun j => (j + n) % 8).Perm (List.range 8) := by
  have hsmall : ∀ r < 8, ((List.range 8).map fun j => (j + r) % 8).Perm (List.range 8) := by decide
  simpa only [Nat.add_mod_mod] using hsmall (n % 8) (Nat.mod_lt _ (by decide))

section
variable {f g : Byte → Byte} {m n : Nat}

/-- Rotating twice adds the distances. -/
theorem RotatesRight.comp (hf : RotatesRight f m) (hg : RotatesRight g n) :
    RotatesRight (f ∘ g) (m + n) := by
  intro v j hj
  rw [Function.comp_apply, hf _ j hj, hg v _ (Nat.mod_lt _ (by decide))]
  congr 1
  omega

/-- The distance, modulo 8, says all that a rotation does. -/
theorem RotatesRight.eq_of_mod_eq (hf : RotatesRight f m) (hg : RotatesRight g n)
    (h : m % 8 = n % 8) (v : Byte) : f v = g v := by
  apply BitVec.eq_of_getLsbD_eq
  intro j hj
  rw [hf v j hj, hg v j hj, Nat.add_mod, h, ← Nat.add_mod]

/-- A rotation moves input bit `i` to output bit `(i + k) mod 8`, `k` completing its distance. -/
theorem RotatesRight.getLsbD_add (hf : RotatesRight f n) {k i : Nat} (hk : k + n = 8) (hi : i < 8)
    (v : Byte) : (f v).getLsbD ((i + k) % 8) = v.getLsbD i := by
  rw [hf v _ (Nat.mod_lt _ (by decide))]
  congr 1
  omega

/-- A rotation is linear over exclusive-or, since it only moves bits (R60). -/
theorem RotatesRight.xor (hf : RotatesRight f n) (a b : Byte) : f (a ^^^ b) = f a ^^^ f b := by
  apply BitVec.eq_of_getLsbD_eq
  intro j hj
  rw [hf _ j hj, BitVec.getLsbD_xor, BitVec.getLsbD_xor, hf a j hj, hf b j hj]

theorem RotatesRight.zero (hf : RotatesRight f n) : f 0#8 = 0#8 := by
  simpa using hf.xor 0#8 0#8

/-- A rotation keeps the number of one bits (R57). -/
theorem RotatesRight.countP (hf : RotatesRight f n) (v : Byte) :
    (List.range 8).countP (f v).getLsbD = (List.range 8).countP v.getLsbD := by
  calc (List.range 8).countP (f v).getLsbD
      = (List.range 8).countP (v.getLsbD ∘ fun j => (j + n) % 8) :=
        List.countP_congr fun j hj => by
          rw [hf v j (List.mem_range.mp hj), Function.comp_apply]
    _ = ((List.range 8).map fun j => (j + n) % 8).countP v.getLsbD := List.countP_map.symm
    _ = (List.range 8).countP v.getLsbD := (map_add_mod_perm_range n).countP_eq _

end

/-! ### What the two operations answer -/

/-- Settles O18: rotating right by 6 moves bit i to bit (i + 2) mod 8. -/
theorem pboxRotatesLeftByTwo : Obligations.PboxRotatesLeftByTwo :=
  fun d _ => ⟨pbox d, rfl, fun _ hi => rotatesRight_pbox.getLsbD_add rfl hi d,
    Req.toWord_of_topByte rfl _ _ _, fun f k v => decode_fields _ f k v d⟩

/-- Settles O19: rotating right by 2 moves bit i to bit (i + 6) mod 8. -/
theorem pboxiRotatesRightByTwo : Obligations.PboxiRotatesRightByTwo :=
  fun d _ => ⟨pboxi d, rfl, fun _ hi => rotatesRight_pboxi.getLsbD_add rfl hi d,
    Req.toWord_of_topByte rfl _ _ _, fun f k v => decode_fields _ f k v d⟩

/-! ### The laws -/

/-- Rotating left by 2 undoes rotating right by 2: the other order of R59. -/
@[simp] theorem pbox_pboxi (v : Byte) : pbox (pboxi v) = v :=
  (rotatesRight_pbox.comp rotatesRight_pboxi).eq_of_mod_eq rotatesRight_id rfl v

/-- Settles O27: two functions that undo each other, on bytes and so on responses. -/
theorem permutationRoundTrip : Obligations.PermutationRoundTrip := by
  refine ⟨fun m => ⟨pboxi_pbox m, pbox_pboxi m⟩, fun m r s t later ht hr => ?_⟩
  obtain rfl : r = pbox m := response_eq_of_exec rfl ht hr
  rw [exec, execPboxi, pboxi_pbox]
  rfl

/-- A fixed point of PBOX is its low bit pair four times over: it has `v[j + 2] = v[j]` (R57). -/
theorem eq_replicate_of_pbox_eq_self {v : Byte} (h : pbox v = v) :
    v = (v.extractLsb' 0 2).replicate 4 := by
  have hpair (j : Nat) : j < 8 → v.getLsbD j = v.getLsbD (j % 2) := by
    induction j using Nat.twoStepInduction with
    | zero | one => exact fun _ => rfl
    | more j ih _ =>
      intro hj
      have hindex : (j + 2 + 6) % 8 = j := by omega
      have hstep := rotatesRight_pbox v (j + 2) hj
      rw [h, hindex] at hstep
      rw [hstep, ih (by omega), Nat.add_mod_right]
  apply BitVec.eq_of_getLsbD_eq
  intro j hj
  have hlow : (v.extractLsb' 0 2).getLsbD (j % 2) = v.getLsbD (j % 2) := by
    rw [BitVec.getLsbD_extractLsb', decide_eq_true (Nat.mod_lt _ (by decide)), Bool.true_and,
      Nat.zero_add]
  rw [BitVec.getLsbD_replicate, decide_eq_true hj, Bool.true_and, hlow, hpair j hj]

/-- The fixed points of PBOX are the four bytes that repeat one bit pair (R57). -/
theorem pbox_eq_self_iff (v : Byte) :
    pbox v = v ↔ v = 0x00#8 ∨ v = 0x55#8 ∨ v = 0xAA#8 ∨ v = 0xFF#8 := by
  constructor
  · intro h
    rw [eq_replicate_of_pbox_eq_self h]
    generalize v.extractLsb' 0 2 = p
    revert p
    decide
  · rintro (rfl | rfl | rfl | rfl) <;> rfl

/-- What undoes PBOX has its fixed points (R58). -/
theorem pboxi_eq_self_iff_pbox_eq_self (v : Byte) : pboxi v = v ↔ pbox v = v :=
  ⟨fun h => Function.IsFixedPt.to_leftInverse h pbox_pboxi,
    fun h => Function.IsFixedPt.to_leftInverse h pboxi_pbox⟩

/-- Settles O28: PBOX rotates right by 6 and PBOXI by 2, so the iterates of PBOX rotate by 12, 18
and 24, which modulo 8 are the distances of the nibble swap, of PBOXI and of the identity. -/
theorem permutationLaws : Obligations.PermutationLaws := by
  have htwice := rotatesRight_pbox.comp rotatesRight_pbox
  have hthrice := rotatesRight_pbox.comp htwice
  have hfour := rotatesRight_pbox.comp hthrice
  refine ⟨fun a b => ⟨rotatesRight_pbox.xor a b, rotatesRight_pboxi.xor a b⟩,
    rotatesRight_pbox.zero, rotatesRight_pboxi.zero, fun v => ⟨?_, ?_, ?_⟩, rfl, rfl, fun v =>
    ⟨pbox_eq_self_iff v, (pboxi_eq_self_iff_pbox_eq_self v).trans (pbox_eq_self_iff v),
      rotatesRight_pbox.countP v⟩⟩
  · exact hfour.eq_of_mod_eq rotatesRight_id rfl v
  · exact hthrice.eq_of_mod_eq rotatesRight_pboxi rfl v
  · exact htwice.eq_of_mod_eq rotatesRight_swap rfl v

end Sys2Proof.Machine
end

