-- ==== Sys2Proof/Proofs/BlockCipher.lean ====
section
/-! SUPPORT. The block functions and the operations ENCB and DECB (spec 42_block_cipher.md R62 to R67):
the one-line formulas, and that decryption runs through encryption backwards. -/

namespace Sys2Proof.Machine

/-! ### The one-line formulas -/

/-- `E` in one line, under a key given by its four bytes (R63). -/
theorem blockE_append (m k1 k2 k3 k4 : Byte) : blockE m (k1 ++ k2 ++ k3 ++ k4) =
    sbox (pbox (sbox (pbox (sbox (m ^^^ k1)) ^^^ k2)) ^^^ k3) ^^^ k4 := by
  obtain ⟨h1, h2, h3, h4⟩ := subkeys_append k1 k2 k3 k4
  rw [blockE, encTrace, h1, h2, h3, h4]

/-- `D` in one line, under a key given by its four bytes (R64). -/
theorem blockD_append (c k1 k2 k3 k4 : Byte) : blockD c (k1 ++ k2 ++ k3 ++ k4) =
    sboxi (pboxi (sboxi (pboxi (sboxi (c ^^^ k4) ^^^ k3)) ^^^ k2)) ^^^ k1 := by
  obtain ⟨h1, h2, h3, h4⟩ := subkeys_append k1 k2 k3 k4
  rw [blockD, decTrace, h1, h2, h3, h4]

/-- Settles O20: ENCB answers `E`, by `blockE_append` the one-line formula. -/
theorem encbEncryptsOneBlock : Obligations.EncbEncryptsOneBlock := by
  refine fun m k1 k2 k3 k4 s => ⟨?_, Req.toWord_bytes _ _ _ _ _ _ _ _ _ rfl,
    fun f v => decode_fields _ f _ v m⟩
  rw [← blockE_append]
  rfl

/-- Settles O21: DECB answers `D`, by `blockD_append` the one-line formula. -/
theorem decbDecryptsOneBlock : Obligations.DecbDecryptsOneBlock := by
  refine fun c k1 k2 k3 k4 s => ⟨?_, Req.toWord_bytes _ _ _ _ _ _ _ _ _ rfl,
    fun f v => decode_fields _ f _ v c⟩
  rw [← blockD_append]
  rfl

/-! ### Decryption runs through encryption backwards -/

/-- Settles O31: each stage of `D` undoes one stage of `E`, the last one first, so each equation
follows from the one before it and the inverse law of the stage. -/
theorem decryptionMirrorsEncryption : Obligations.DecryptionMirrorsEncryption := by
  intro m k
  have h1 : (decTrace (blockE m k) k).u1 = (encTrace m k).t8 := xor_cancel_right _ _
  have h2 : (decTrace (blockE m k) k).u2 = (encTrace m k).t7 :=
    (congrArg sboxi h1).trans (sboxi_sbox _)
  have h3 : (decTrace (blockE m k) k).u3 = (encTrace m k).t6 :=
    (congrArg (· ^^^ subkey3 k) h2).trans (xor_cancel_right _ _)
  have h4 : (decTrace (blockE m k) k).u4 = (encTrace m k).t5 :=
    (congrArg pboxi h3).trans (pboxi_pbox _)
  have h5 : (decTrace (blockE m k) k).u5 = (encTrace m k).t4 :=
    (congrArg sboxi h4).trans (sboxi_sbox _)
  have h6 : (decTrace (blockE m k) k).u6 = (encTrace m k).t3 :=
    (congrArg (· ^^^ subkey2 k) h5).trans (xor_cancel_right _ _)
  have h7 : (decTrace (blockE m k) k).u7 = (encTrace m k).t2 :=
    (congrArg pboxi h6).trans (pboxi_pbox _)
  have h8 : (decTrace (blockE m k) k).u8 = (encTrace m k).t1 :=
    (congrArg sboxi h7).trans (sboxi_sbox _)
  have h9 : (decTrace (blockE m k) k).u9 = m :=
    (congrArg (· ^^^ subkey1 k) h8).trans (xor_cancel_right _ _)
  exact ⟨h1, h2, h3, h4, h5, h6, h7, h8, h9⟩

/-- Each stage of `E` takes back one stage of `D`: the other order of R67. -/
theorem blockE_blockD (c : Byte) (k : Key32) : blockE (blockD c k) k = c := by
  simp only [blockE, encTrace, blockD, decTrace, xor_cancel_right, sbox_sboxi, pbox_pboxi]

/-- Settles O30: two functions that undo each other, on bytes and so on responses. -/
theorem blockRoundTrip : Obligations.BlockRoundTrip := by
  refine ⟨fun m k => ⟨blockD_blockE m k, blockE_blockD m k⟩, fun k => ⟨?_, ?_⟩,
    fun m r k s t later ht hr => ?_⟩
  · exact Function.bijective_iff_has_inverse.mpr
      ⟨fun c => blockD c k, fun m => blockD_blockE m k, fun c => blockE_blockD c k⟩
  · exact Function.bijective_iff_has_inverse.mpr
      ⟨fun m => blockE m k, fun c => blockE_blockD c k, fun m => blockD_blockE m k⟩
  · obtain rfl : r = blockE m k := response_eq_of_exec rfl ht hr
    rw [exec, execDecb, blockD_blockE]
    rfl

end Sys2Proof.Machine
end

