-- ==== Sys2Proof/Proofs/BlockAffine.lean ====
section
/-! SUPPORT. Block encryption is affine over exclusive-or (spec 42_block_cipher.md R69): every stage has
a linear part, a key addition has the identity, and so no key is left in the linear part of `E`. -/

namespace Sys2Proof.Machine

/-! ### Affine functions on bytes -/

/-- `f` is affine over exclusive-or with linear part `A`: the difference of two answers is `A` of the
difference of the operands. That `A` is linear follows (`HasLinearPart.xor`). -/
def HasLinearPart (f A : Byte → Byte) : Prop := ∀ a b : Byte, f a ^^^ f b = A (a ^^^ b)

section
variable {f g A B : Byte → Byte}

theorem HasLinearPart.zero (hf : HasLinearPart f A) : A 0x00#8 = 0x00#8 := by
  simpa using (hf 0x00#8 0x00#8).symm

/-- A function is its linear part, and its value at zero. -/
theorem HasLinearPart.eq_xor_zero (hf : HasLinearPart f A) (m : Byte) :
    f m = A m ^^^ f 0x00#8 := by
  rw [← xor_eq_iff_left_eq, hf m 0x00#8, BitVec.xor_zero]

theorem HasLinearPart.xor (hf : HasLinearPart f A) (a b : Byte) : A (a ^^^ b) = A a ^^^ A b := by
  calc A (a ^^^ b)
      = A a ^^^ f 0x00#8 ^^^ (A b ^^^ f 0x00#8) := by
        rw [← hf.eq_xor_zero a, ← hf.eq_xor_zero b, hf]
    _ = A a ^^^ A b ^^^ (f 0x00#8 ^^^ f 0x00#8) := by ac_rfl
    _ = A a ^^^ A b := by rw [BitVec.xor_self, BitVec.xor_zero]

/-- The linear part of one stage after another. -/
theorem HasLinearPart.comp (hf : HasLinearPart f A) (hg : HasLinearPart g B) :
    HasLinearPart (f ∘ g) (A ∘ B) := fun a b => by
  rw [Function.comp_apply, Function.comp_apply, hf, hg, Function.comp_apply]

/-- Adding a key after a stage does not change its linear part. -/
theorem HasLinearPart.xor_const (hf : HasLinearPart f A) (k : Byte) :
    HasLinearPart (fun v => f v ^^^ k) A := fun a b => by
  calc f a ^^^ k ^^^ (f b ^^^ k)
      = f a ^^^ f b ^^^ (k ^^^ k) := by ac_rfl
    _ = A (a ^^^ b) := by rw [BitVec.xor_self, BitVec.xor_zero, hf]

end

/-! ### The linear part of `E` -/

/-- The linear part of SBOX (R55). -/
def sboxLinear (v : Byte) : Byte := sbox v ^^^ sbox 0x00#8

theorem hasLinearPart_id : HasLinearPart id id := fun _ _ => rfl

/-- Three inputs XORed give their outputs XORed; here the third is zero (R55). -/
theorem hasLinearPart_sbox : HasLinearPart sbox sboxLinear := fun a b => by
  rw [sboxLinear, ← xor_eq_iff_left_eq, sbox_xor_three, BitVec.xor_zero]

/-- PBOX is linear already (R60). -/
theorem hasLinearPart_pbox : HasLinearPart pbox pbox := fun a b => (rotatesRight_pbox.xor a b).symm

/-- The linear part of `E`: its stages without the key additions (R69). -/
def blockLinear : Byte → Byte := sboxLinear ∘ pbox ∘ sboxLinear ∘ pbox ∘ sboxLinear

/-- Under every key `E` has the same linear part (R69). -/
theorem hasLinearPart_blockE (k : Key32) : HasLinearPart (fun m => blockE m k) blockLinear :=
  have round1 := hasLinearPart_pbox.comp
    (hasLinearPart_sbox.comp (hasLinearPart_id.xor_const (subkey1 k)))
  have round2 := hasLinearPart_pbox.comp (hasLinearPart_sbox.comp (round1.xor_const (subkey2 k)))
  (hasLinearPart_sbox.comp (round2.xor_const (subkey3 k))).xor_const (subkey4 k)

/-- The last subkey alone takes a block to any ciphertext byte. -/
theorem exists_blockE_eq (m e : Byte) : ∃ k : Key32, blockE m k = e := by
  refine ⟨0x00#8 ++ 0x00#8 ++ 0x00#8 ++ (sbox (pbox (sbox (pbox (sbox m)))) ^^^ e), ?_⟩
  rw [blockE_append, BitVec.xor_zero, BitVec.xor_zero, BitVec.xor_zero, xor_cancel_left]

/-- Settles O32: the linear part of `E` is the same under every key, so a key acts only through
`E(0x00, .)`. -/
theorem blockCipherIsAffine : Obligations.BlockCipherIsAffine := by
  have hblock (m : Byte) (k : Key32) : blockE m k = blockLinear m ^^^ blockE 0x00#8 k :=
    (hasLinearPart_blockE k).eq_xor_zero m
  have hlinear := hasLinearPart_blockE 0x00000000#32
  refine ⟨blockLinear, hlinear.xor, hlinear.zero, rfl, rfl, rfl, rfl, rfl, rfl, rfl, rfl, hblock,
    fun a b k => hasLinearPart_blockE k a b, fun k k' h m => ?_, exists_blockE_eq 0x00#8, rfl, rfl⟩
  rw [hblock m k, hblock m k', h]

end Sys2Proof.Machine
end

