-- ==== Sys2Proof/Proofs/RunAnswers.lean ====
section
/-! SUPPORT. A run of requests with the responses it gives, one for each request, and what of them stays
when requests that leave `CV` alone are taken out (spec 20_memory.md R25, R33, 10_state.md R22). -/

namespace Sys2Proof.Machine

/-- The requests of `L`, executed from `s`, complete in `t`, and answer the bytes of `r`, request n with
byte n (R25). It is a completed `runInstrs` with its responses named: `exists_runAnswers`,
`RunAnswers.runInstrs_eq`, `RunAnswers.rsp_eq`. -/
inductive RunAnswers : List Instr → State → List Byte → State → Prop
  | nil (s : State) : RunAnswers [] s [] s
  | cons {i : Instr} {L : List Instr} {s u t : State} {b : Byte} {r : List Byte}
      (hexec : exec i s = .next u) (hb : u.rsp = s.rsp ++ [b]) (hrun : RunAnswers L u r t) :
      RunAnswers (i :: L) s (b :: r) t

section
variable {L : List Instr} {s t : State} {r : List Byte}

/-- A run that completes has answered some bytes. -/
theorem exists_runAnswers (h : runInstrs L s = .next t) : ∃ r, RunAnswers L s r t := by
  induction L generalizing s with
  | nil =>
    cases h
    exact ⟨[], .nil _⟩
  | cons i L ih =>
    obtain ⟨u, hexec, hrun⟩ := runInstrs_cons_next_iff.mp h
    obtain ⟨b, hb, -⟩ := execFrame i s u hexec
    obtain ⟨r, hr⟩ := ih hrun
    exact ⟨b :: r, .cons hexec hb hr⟩

/-- The requests run to the end in the model. -/
theorem RunAnswers.runInstrs_eq (h : RunAnswers L s r t) : runInstrs L s = .next t := by
  induction h with
  | nil s => rfl
  | cons hexec _ _ ih => exact runInstrs_cons_next_iff.mpr ⟨_, hexec, ih⟩

/-- The answers stand behind the responses that were there before (R25). -/
theorem RunAnswers.rsp_eq (h : RunAnswers L s r t) : t.rsp = s.rsp ++ r := by
  induction h with
  | nil s => simp
  | cons _ hb _ ih => rw [ih, hb, List.append_assoc, List.singleton_append]

/-- There is one response for each request (R25). -/
theorem RunAnswers.length_eq (h : RunAnswers L s r t) : r.length = L.length := by
  induction h with
  | nil s => rfl
  | cons _ _ _ ih => rw [List.length_cons, List.length_cons, ih]

/-- A request that answers one byte from every state is answered that byte in every run, wherever it
stands. -/
theorem RunAnswers.getElem?_eq (h : RunAnswers L s r t) {n : Nat} {x : Instr} {c : Byte}
    (hx : ∀ s : State, exec x s = .next (s.respond c)) (hn : L[n]? = some x) : r[n]? = some c := by
  induction h generalizing n with
  | nil s => cases hn
  | cons hexec hb _ ih =>
    cases n with
    | zero =>
      cases hn
      exact congrArg some (response_eq_of_exec (hx _) hexec hb)
    | succ n => exact ih hn

/-! ### Taking requests out of a run -/

theorem responsesOf_cons_of_pos {keep : Instr → Bool} {i : Instr} (hi : keep i = true) (b : Byte) :
    responsesOf keep (i :: L) (b :: r) = b :: responsesOf keep L r := by
  simp [responsesOf, hi]

theorem responsesOf_cons_of_neg {keep : Instr → Bool} {i : Instr} (hi : keep i = false) (b : Byte) :
    responsesOf keep (i :: L) (b :: r) = responsesOf keep L r := by
  simp [responsesOf, hi]

/-- From a state with the same `CV` an instruction answers the same byte and leaves the same `CV`. -/
theorem exec_next_of_cv_eq {i : Instr} {s s' u : State} {b : Byte} (hcv : s'.cv = s.cv)
    (hexec : exec i s = .next u) (hb : u.rsp = s.rsp ++ [b]) :
    ∃ u', exec i s' = .next u' ∧ u'.rsp = s'.rsp ++ [b] ∧ u'.cv = u.cv := by
  obtain ⟨b', u', hexec', hcv', hb', hrsp'⟩ :=
    (outcomeDependsOnOperandsAndCV i s s' hcv.symm).1 u hexec
  obtain rfl : b = b' := by simpa [hb] using hb'
  exact ⟨u', hexec', hrsp', hcv'⟩

/-- An operation outside the CBC controller leaves `CV` (R22). -/
theorem exec_cv_of_not_isCbc {i : Instr} {s u : State} (hi : isCbc i = false)
    (hexec : exec i s = .next u) : u.cv = s.cv := by
  obtain ⟨b, hnext⟩ := exec_of_not_isCbc hi
  rw [hnext] at hexec
  cases hexec
  rfl

/-- A run can do without any of its requests outside the CBC controller: from a state with the same
`CV` the others complete, are answered as before, and leave the same `CV`. -/
theorem RunAnswers.filter (h : RunAnswers L s r t) {keep : Instr → Bool}
    (hkeep : ∀ x ∈ L, keep x = false → isCbc x = false) {s' : State} (hcv : s'.cv = s.cv) :
    ∃ t', RunAnswers (L.filter keep) s' (responsesOf keep L r) t' ∧ t'.cv = t.cv := by
  induction h generalizing s' with
  | nil s => exact ⟨s', .nil s', hcv⟩
  | @cons i L s u t b r hexec hb _ ih =>
    obtain ⟨hi, hL⟩ := List.forall_mem_cons.mp hkeep
    cases hki : keep i with
    | true =>
      obtain ⟨u', hexec', hb', hcv'⟩ := exec_next_of_cv_eq hcv hexec hb
      obtain ⟨t', hrun, ht'⟩ := ih hL hcv'
      rw [List.filter_cons_of_pos hki, responsesOf_cons_of_pos hki]
      exact ⟨t', .cons hexec' hb' hrun, ht'⟩
    | false =>
      have hu : s'.cv = u.cv := hcv.trans (exec_cv_of_not_isCbc (hi hki) hexec).symm
      rw [List.filter_cons_of_neg (by simp [hki]), responsesOf_cons_of_neg hki]
      exact ih hL hu

end

end Sys2Proof.Machine
end

