-- ==== Sys2Proof/Proofs/EcbController.lean ====
section
/-! SUPPORT. The ECB controller (spec 43_ecb.md R72 to R77): its two operations, and that its calls
compute the buffer functions from every state, whatever else is requested in between. -/

namespace Sys2Proof.Machine

/-! ### One beat -/

/-- An ECBE beat answers `E` and does nothing else (R72). -/
theorem exec_ecbe (m : Byte) (k : Key32) (s : State) :
    exec (.ecbe m k) s = .next (s.respond (blockE m k)) := rfl

/-- An ECBD beat answers `D` and does nothing else (R73). -/
theorem exec_ecbd (c : Byte) (k : Key32) (s : State) :
    exec (.ecbd c k) s = .next (s.respond (blockD c k)) := rfl

/-- Settles O22: ECBE answers `E`, by `blockE_append` the one-line formula. -/
theorem ecbeEncryptsOneBeat : Obligations.EcbeEncryptsOneBeat := by
  refine fun m k1 k2 k3 k4 s => ⟨?_, rfl, Req.toWord_bytes _ _ _ _ _ _ _ _ _ rfl,
    fun f v => decode_fields _ f _ v m⟩
  rw [exec_ecbe, blockE_append]
  rfl

/-- Settles O23: ECBD answers `D`, by `blockD_append` the one-line formula. -/
theorem ecbdDecryptsOneBeat : Obligations.EcbdDecryptsOneBeat := by
  refine fun c k1 k2 k3 k4 s => ⟨?_, rfl, Req.toWord_bytes _ _ _ _ _ _ _ _ _ rfl,
    fun f v => decode_fields _ f _ v c⟩
  rw [exec_ecbd, blockD_append]
  rfl

/-! ### Whole buffers -/

/-- Settles O38: both functions are the block function mapped over the buffer. -/
theorem ecbElementwise : Obligations.EcbElementwise := by
  refine fun B k => ⟨List.length_map _, List.length_map _, fun i b hb => ⟨?_, ?_⟩⟩
  · rw [encryptEcb, List.getElem?_map, hb]
    rfl
  · rw [decryptEcb, List.getElem?_map, hb]
    rfl

/-- Decryption undoes encryption element by element (R76). -/
theorem decryptEcb_encryptEcb (B : List Byte) (k : Key32) : decryptEcb (encryptEcb B k) k = B := by
  rw [decryptEcb, encryptEcb, List.map_map]
  exact List.map_id'' (fun b => blockD_blockE b k) B

/-! ### Calls -/

/-- One request per element of a buffer, each answered with a function of its element and nothing
else: the call answers that function mapped over the buffer. -/
theorem runInstrs_map {beat : Byte → Instr} {answer : Byte → Byte}
    (h : ∀ (b : Byte) (s : State), exec (beat b) s = .next (s.respond (answer b)))
    (B : List Byte) (s : State) :
    runInstrs (B.map beat) s = .next { s with rsp := s.rsp ++ B.map answer } := by
  induction B generalizing s with
  | nil => simp [runInstrs]
  | cons b B ih => simp [runInstrs, h, ih, State.respond]

theorem runInstrs_callEncryptEcb (B : List Byte) (k : Key32) (s : State) :
    runInstrs (callEncryptEcb B k) s = .next { s with rsp := s.rsp ++ encryptEcb B k } :=
  runInstrs_map (fun b => exec_ecbe b k) B s

theorem runInstrs_callDecryptEcb (B : List Byte) (k : Key32) (s : State) :
    runInstrs (callDecryptEcb B k) s = .next { s with rsp := s.rsp ++ decryptEcb B k } :=
  runInstrs_map (fun b => exec_ecbd b k) B s

/-- Settles O39: the beats of a call answer from every state alike, so in any run each is answered with
its own byte (`RunAnswers.getElem?_eq`), and requests that leave `CV` can be taken out of the run
(`RunAnswers.filter`). -/
theorem ecbCallsComputeEcb : Obligations.EcbCallsComputeEcb := by
  refine ⟨fun B k s => ⟨runInstrs_callEncryptEcb B k s, runInstrs_callDecryptEcb B k s⟩,
    fun L s t ht => ?_⟩
  obtain ⟨r, hr⟩ := exists_runAnswers ht
  refine ⟨r, hr.rsp_eq, hr.length_eq, fun i m k => hr.getElem?_eq (exec_ecbe m k),
    fun i c k => hr.getElem?_eq (exec_ecbd c k), fun p hp => ?_⟩
  obtain ⟨t', hrun, hcv⟩ := hr.filter (keep := fun x => !p x)
    (fun x hx hpx => hp x hx (by simpa using hpx)) rfl
  exact ⟨t', hrun.runInstrs_eq, hcv, hrun.rsp_eq⟩

/-- Settles O40: the second call starts from the state the first leaves, and answers the buffer by
`decryptEcb_encryptEcb`. -/
theorem ecbRoundTrip : Obligations.EcbRoundTrip := by
  refine fun B k => ⟨decryptEcb_encryptEcb B k, fun s => ?_⟩
  rw [runInstrs_append, runInstrs_callEncryptEcb]
  simp only [runInstrs_callDecryptEcb, decryptEcb_encryptEcb]

end Sys2Proof.Machine
end

