-- ==== Sys2Proof/Proofs/ChainedBeats.lean ====
section
/-! SUPPORT. A call whose beats chain, for any chaining operation (spec 30_encoding.md R47, 44_cbc.md R79,
R84): what the call answers and leaves in `CV`, whatever requests outside the CBC controller come in
between. The two CBC operations are the instances, in the next file. -/

namespace Sys2Proof.Machine

/-! ### A buffer under a chaining value -/

/-- A buffer element by element under a chaining value that each element replaces; the chaining values
after each element are `chainMap next next`. Its two instances are the functions of the model:
`encryptCbc_eq_chainMap` and `decryptCbc_eq_chainMap`. -/
def chainMap (answer next : Byte → Byte → Byte) : List Byte → Byte → List Byte
  | [], _ => []
  | b :: B, c => answer b c :: chainMap answer next B (next b c)

section
variable (answer next : Byte → Byte → Byte)

@[simp] theorem length_chainMap (B : List Byte) (c : Byte) :
    (chainMap answer next B c).length = B.length := by
  induction B generalizing c with
  | nil => rfl
  | cons b B ih => rw [chainMap, List.length_cons, List.length_cons, ih]

/-- An element is answered under the chaining value that the element before it leaves, the first one
under the value given. -/
theorem getElem?_chainMap {B : List Byte} {v : Byte} {i : Nat} {b c : Byte} (hb : B[i]? = some b)
    (hc : (v :: chainMap next next B v)[i]? = some c) :
    (chainMap answer next B v)[i]? = some (answer b c) := by
  induction B generalizing v i with
  | nil => cases hb
  | cons b' B ih =>
    cases i with
    | zero =>
      cases hb
      cases hc
      rfl
    | succ i => exact ih hb hc

/-- The first elements are answered without regard to the later ones. -/
theorem take_chainMap (n : Nat) (B : List Byte) (c : Byte) :
    (chainMap answer next B c).take n = chainMap answer next (B.take n) c := by
  induction B generalizing n c with
  | nil => rw [List.take_nil, chainMap, List.take_nil]
  | cons b B ih =>
    cases n with
    | zero => rfl
    | succ n => rw [chainMap, List.take_succ_cons, ih, List.take_succ_cons, chainMap]

/-- Where each element is itself the next chaining value, the chaining values are the buffer. -/
theorem chainMap_fst (B : List Byte) (c : Byte) :
    chainMap (fun b _ => b) (fun b _ => b) B c = B := by
  induction B generalizing c with
  | nil => rfl
  | cons b B ih => exact congrArg (b :: ·) (ih b)

end

/-! ### The call on a buffer -/

/-- The requests of a call: the first brings the iv, the later ones chain from `CV` (R47). Its two
instances are the calls of the model: `callEncryptCbc_eq_chainCall` and
`callDecryptCbc_eq_chainCall`. -/
def chainCall (beat : Byte → Option Byte → Instr) : List Byte → Byte → List Instr
  | [], _ => []
  | b :: B, v => beat b (some v) :: B.map fun b => beat b none

/-- The first beats of a call are the call on the first elements. -/
theorem take_chainCall (beat : Byte → Option Byte → Instr) (n : Nat) (B : List Byte) (v : Byte) :
    (chainCall beat B v).take n = chainCall beat (B.take n) v := by
  cases B with
  | nil => rw [List.take_nil, chainCall, List.take_nil]
  | cons b B =>
    cases n with
    | zero => rfl
    | succ n => rw [chainCall, List.take_succ_cons, List.take_succ_cons, chainCall, List.map_take]

/-- From every state in which it has a chaining input, a beat answers and leaves in `CV` what the two
functions make of its element and that input (R79). -/
def ChainBeat (beat : Byte → Option Byte → Instr) (answer next : Byte → Byte → Byte) : Prop :=
  ∀ ⦃b cin : Byte⦄ ⦃iv : Option Byte⦄ ⦃s : State⦄, chainInput iv s = some cin →
    exec (beat b iv) s = .next ((s.respond (answer b cin)).writeCV (next b cin))

/-! ### What the call answers and leaves -/

section
variable {beat : Byte → Option Byte → Instr} {answer next : Byte → Byte → Byte}

/-- The beats with `first = 0` answer the buffer under the value that `CV` holds, and leave the last
chaining value. -/
theorem ChainBeat.runAnswers_later (h : ChainBeat beat answer next) (B : List Byte) {c : Byte}
    {s : State} (hs : s.cv = some c) :
    ∃ t, RunAnswers (B.map fun b => beat b none) s (chainMap answer next B c) t ∧
      t.cv = (c :: chainMap next next B c).getLast? := by
  induction B generalizing c s with
  | nil => exact ⟨s, .nil s, hs⟩
  | cons b B ih =>
    obtain ⟨t, hrun, hcv⟩ := ih (s := (s.respond (answer b c)).writeCV (next b c)) rfl
    exact ⟨t, .cons (h hs) rfl hrun, hcv⟩

/-- The whole call answers the buffer under the iv, from every state, and leaves the last chaining
value; the call on an empty buffer leaves `CV`. -/
theorem ChainBeat.runAnswers_call (h : ChainBeat beat answer next) (B : List Byte) (v : Byte)
    (s : State) :
    ∃ t, RunAnswers (chainCall beat B v) s (chainMap answer next B v) t ∧
      t.cv = (chainMap next next B v).getLast?.or s.cv := by
  cases B with
  | nil => exact ⟨s, .nil s, rfl⟩
  | cons b B =>
    obtain ⟨t, hrun, hcv⟩ :=
      h.runAnswers_later B (s := (s.respond (answer b v)).writeCV (next b v)) rfl
    refine ⟨t, .cons (h rfl) rfl hrun, ?_⟩
    rw [hcv, chainMap, List.getLast?_cons, Option.some_or]

/-- Other requests may come between those of the CBC controller: from a state with the same `CV` these
are answered as they are alone, and `CV` is left as they leave it (R22). -/
theorem exists_runAnswers_of_filter {L : List Instr} {s s' t' : State} {r' : List Byte}
    (hcv : s.cv = s'.cv) (h : RunAnswers (L.filter isCbc) s' r' t') :
    ∃ t r, RunAnswers L s r t ∧ responsesOf isCbc L r = r' ∧ t.cv = t'.cv := by
  induction L generalizing s s' r' with
  | nil =>
    cases h
    exact ⟨s, [], .nil s, rfl, hcv⟩
  | cons i L ih =>
    cases hi : isCbc i with
    | true =>
      rw [List.filter_cons_of_pos hi] at h
      obtain _ | ⟨hexec', hb', hrun'⟩ := h
      obtain ⟨u, hexec, hb, hu⟩ := exec_next_of_cv_eq hcv hexec' hb'
      obtain ⟨t, r, hrun, rfl, ht⟩ := ih hu hrun'
      exact ⟨t, _, .cons hexec hb hrun, responsesOf_cons_of_pos hi _, ht⟩
    | false =>
      rw [List.filter_cons_of_neg (by simp [hi])] at h
      obtain ⟨b, hexec⟩ := exec_of_not_isCbc hi
      obtain ⟨t, r, hrun, rfl, ht⟩ := ih (s := s.respond b) hcv h
      exact ⟨t, _, .cons (hexec s) rfl hrun, responsesOf_cons_of_neg hi b, ht⟩

/-- The first `n` beats of a call, among any other requests (R84): they are the call on the first `n`
elements, and the others do not disturb it. -/
theorem ChainBeat.runInstrs_interleaved (h : ChainBeat beat answer next) {B : List Byte} {v : Byte}
    {L : List Instr} {n : Nat} (s : State) (hn : n ≤ B.length)
    (hL : L.filter isCbc = (chainCall beat B v).take n) :
    ∃ t r, runInstrs L s = .next t ∧ t.rsp = s.rsp ++ r ∧ r.length = L.length ∧
      responsesOf isCbc L r = (chainMap answer next B v).take n ∧
      (n = 0 → t.cv = s.cv) ∧
      (∀ i, n = i + 1 → t.cv = (chainMap next next B v)[i]? ∧ t.cv.isSome = true) := by
  obtain ⟨t', hcall, hcv'⟩ := h.runAnswers_call (B.take n) v s
  rw [← take_chainCall, ← hL] at hcall
  obtain ⟨t, r, hrun, hresp, hcv⟩ := exists_runAnswers_of_filter rfl hcall
  rw [hcv', ← take_chainMap] at hcv
  refine ⟨t, r, hrun.runInstrs_eq, hrun.rsp_eq, hrun.length_eq, ?_, ?_, ?_⟩
  · rw [hresp, take_chainMap]
  · rintro rfl
    exact hcv
  · rintro i rfl
    have hi : i < (chainMap next next B v).length := by rw [length_chainMap]; omega
    rw [hcv, List.getLast?_take, if_neg (Nat.succ_ne_zero i), Nat.add_sub_cancel,
      List.getElem?_eq_getElem hi]
    exact ⟨rfl, rfl⟩

end

end Sys2Proof.Machine
end

