-- ==== Sys2Proof/Proofs/CbcController.lean ====
section
/-! SUPPORT. The CBC controller (spec 44_cbc.md R79 to R85): its two operations, and that its calls
compute the buffer functions from every state, whatever else is requested in between. -/

namespace Sys2Proof.Machine

/-! ### One beat -/

/-- Settles O24: CBCE answers and chains `E` of din and chaining input XORed, by `blockE_append` the
one-line formula. -/
theorem cbceEncryptsAndChains : Obligations.CbceEncryptsAndChains := by
  intro d k1 k2 k3 k4 cin s y hy
  rw [← blockE_append] at hy
  subst hy
  exact ⟨exec_cbce_of_chainInput rfl, fun hs => exec_cbce_of_chainInput hs,
    fun hs => exec_refused_of_chainsFromCV rfl hs, Req.toWord_bytes _ _ _ _ _ _ _ _ _ rfl,
    Req.toWord_bytes _ _ _ _ _ _ _ _ _ rfl,
    fun v => ⟨decode_fields _ _ _ v d, decode_fields _ _ _ v d⟩⟩

/-- Settles O25: CBCD answers `D` of din, by `blockD_append` the one-line formula, XORed with the
chaining input, and chains din. -/
theorem cbcdDecryptsAndChains : Obligations.CbcdDecryptsAndChains := by
  intro d k1 k2 k3 k4 cin s x hx
  rw [← blockD_append] at hx
  subst hx
  exact ⟨exec_cbcd_of_chainInput rfl, fun hs => exec_cbcd_of_chainInput hs,
    fun hs => exec_refused_of_chainsFromCV rfl hs, Req.toWord_bytes _ _ _ _ _ _ _ _ _ rfl,
    Req.toWord_bytes _ _ _ _ _ _ _ _ _ rfl,
    fun v => ⟨decode_fields _ _ _ v d, decode_fields _ _ _ v d⟩⟩

section
variable (k : Key32)

/-- A CBCE beat chains the byte it answers (R80). -/
theorem chainBeat_cbce : ChainBeat (fun b iv => .cbce b k iv) (fun b c => blockE (b ^^^ c) k)
    (fun b c => blockE (b ^^^ c) k) := fun _ _ _ _ => exec_cbce_of_chainInput

/-- A CBCD beat chains the byte it is given (R81; 90_conflicts.md C1). -/
theorem chainBeat_cbcd : ChainBeat (fun b iv => .cbcd b k iv) (fun b c => blockD b k ^^^ c)
    (fun b _ => b) := fun _ _ _ _ => exec_cbcd_of_chainInput

/-! ### Whole buffers -/

theorem encryptCbc_eq_chainMap (B : List Byte) (v : Byte) :
    encryptCbc B k v =
      chainMap (fun b c => blockE (b ^^^ c) k) (fun b c => blockE (b ^^^ c) k) B v := by
  induction B generalizing v with
  | nil => rfl
  | cons b B ih => exact congrArg (_ :: ·) (ih _)

theorem decryptCbc_eq_chainMap (B : List Byte) (v : Byte) :
    decryptCbc B k v = chainMap (fun b c => blockD b k ^^^ c) (fun b _ => b) B v := by
  induction B generalizing v with
  | nil => rfl
  | cons b B ih => exact congrArg (_ :: ·) (ih b)

/-- Decryption undoes encryption: both chain from the same ciphertext bytes (R85). -/
theorem decryptCbc_encryptCbc (B : List Byte) (v : Byte) :
    decryptCbc (encryptCbc B k v) k v = B := by
  induction B generalizing v with
  | nil => rfl
  | cons b B ih => rw [encryptCbc, decryptCbc, blockD_blockE, xor_cancel_right, ih]

theorem callEncryptCbc_eq_chainCall (B : List Byte) (v : Byte) :
    callEncryptCbc B k v = chainCall (fun b iv => .cbce b k iv) B v := by
  cases B <;> rfl

theorem callDecryptCbc_eq_chainCall (B : List Byte) (v : Byte) :
    callDecryptCbc B k v = chainCall (fun b iv => .cbcd b k iv) B v := by
  cases B <;> rfl

end

/-- Settles O41: the chaining values of encryption are its answers. -/
theorem cbcEncryptRecurrence : Obligations.CbcEncryptRecurrence := by
  intro B k v
  rw [encryptCbc_eq_chainMap]
  exact ⟨length_chainMap _ _ B v, fun _ _ _ => getElem?_chainMap _ _, rfl⟩

/-- Settles O42: the chaining values of decryption are the buffer. -/
theorem cbcDecryptRecurrence : Obligations.CbcDecryptRecurrence := by
  intro B k v
  rw [decryptCbc_eq_chainMap]
  refine ⟨length_chainMap _ _ B v, fun i b c hb hc => getElem?_chainMap _ _ hb ?_, rfl⟩
  rwa [chainMap_fst]

/-- Settles O46: of the buffer, only the first element is answered under the iv. -/
theorem wrongIvDamagesFirstByteOnly : Obligations.WrongIvDamagesFirstByteOnly := by
  refine fun b B k v v' => ⟨rfl, congrArg some ?_⟩
  calc blockD b k ^^^ v
      = blockD b k ^^^ v ^^^ (v' ^^^ v') := by rw [BitVec.xor_self, BitVec.xor_zero]
    _ = blockD b k ^^^ v' ^^^ v ^^^ v' := by ac_rfl

/-! ### Calls -/

/-- Settles O43: CBCE chains what it answers, so after beat i `CV` holds answer i. -/
theorem cbcEncryptCallComputesEncryptCbc : Obligations.CbcEncryptCallComputesEncryptCbc := by
  intro B k v L n s hn hL
  rw [callEncryptCbc_eq_chainCall] at hL
  rw [encryptCbc_eq_chainMap]
  exact (chainBeat_cbce k).runInstrs_interleaved s hn hL

/-- Settles O44: CBCD chains its din, so after beat i `CV` holds element i of the buffer. -/
theorem cbcDecryptCallComputesDecryptCbc : Obligations.CbcDecryptCallComputesDecryptCbc := by
  intro B k v L n s hn hL
  rw [callDecryptCbc_eq_chainCall] at hL
  have hrun := (chainBeat_cbcd k).runInstrs_interleaved s hn hL
  rwa [chainMap_fst, ← decryptCbc_eq_chainMap] at hrun

/-- Settles O45: the second call completes from the state the first leaves, whatever `CV` holds there,
and answers the buffer by `decryptCbc_encryptCbc`. -/
theorem cbcRoundTrip : Obligations.CbcRoundTrip := by
  refine fun B k v => ⟨decryptCbc_encryptCbc k B v, decryptEcb_encryptEcb B k, fun s => ?_⟩
  obtain ⟨u, henc, -⟩ := (chainBeat_cbce k).runAnswers_call B v s
  rw [← callEncryptCbc_eq_chainCall, ← encryptCbc_eq_chainMap] at henc
  obtain ⟨t, hdec, -⟩ := (chainBeat_cbcd k).runAnswers_call (encryptCbc B k v) v u
  rw [← callDecryptCbc_eq_chainCall, ← decryptCbc_eq_chainMap, decryptCbc_encryptCbc] at hdec
  refine ⟨t, ?_, by rw [hdec.rsp_eq, henc.rsp_eq]⟩
  rw [runInstrs_append, henc.runInstrs_eq]
  exact hdec.runInstrs_eq

end Sys2Proof.Machine
end

