-- ==== Sys2Proof/Proofs/ResetAction.lean ====
section
/-! SUPPORT. The two ways a host applies reset: between requests, and during one (spec
70_reset_and_hazards.md R100, R101). -/

namespace Sys2Proof.Machine

/-- With a reset between requests waiting, a step applies it and completes (R100). -/
theorem step_of_reset {s : State} {rest : List HostAction} (hs : s.inputs = .reset :: rest) :
    step s = .next { s with inputs := rest }.applyReset :=
  step_of_inputs_cons hs

/-- Settles O34: `step_of_reset`, and reset takes back no response (`observed_applyReset`). -/
theorem resetEmptiesChainingRegister : Obligations.ResetEmptiesChainingRegister :=
  ⟨fun _ _ hs => ⟨_, step_of_reset hs, rfl, rfl, rfl, State.observed_applyReset _, rfl⟩, rfl, rfl⟩

/-- With a reset during an illegal request waiting, a step is refused (R42). -/
theorem step_of_illegal_resetDuring {s : State} {w : ReqWord} {rest : List HostAction}
    {why : Illegal} (hs : s.inputs = .resetDuring w :: rest) (hw : decode w = .error why) :
    step s = .refused (.illegalRequest why) := by
  rw [step_of_inputs_cons hs]
  simp only [doAction, execResetDuring, hw]

section
variable {s : State} {w : ReqWord} {rest : List HostAction} {i : Instr}
  (hs : s.inputs = .resetDuring w :: rest) (hw : decode w = .ok i)
include hs hw

/-- Where the free value lets the reset win, the request is not executed (R101). -/
theorem step_of_resetDuring_not_executed (hfree : Config.requestBeatsReset s.freeIndex = false) :
    step s = .next { s with inputs := rest }.nextFree.applyReset := by
  rw [step_of_inputs_cons hs]
  simp [doAction, execResetDuring, hw, hfree]

/-- Where it lets the request win, the request completes before the reset takes effect (R101). -/
theorem step_of_resetDuring_executed {u : State}
    (hfree : Config.requestBeatsReset s.freeIndex = true)
    (hexec : exec i { s with inputs := rest }.nextFree = .next u) :
    step s = .next u.applyReset := by
  rw [step_of_inputs_cons hs]
  simp [doAction, execResetDuring, hw, hfree, hexec]

/-- Where it lets a request win that is refused, the step is refused (R79). -/
theorem step_of_resetDuring_refused {r : Refusal}
    (hfree : Config.requestBeatsReset s.freeIndex = true)
    (hexec : exec i { s with inputs := rest }.nextFree = .refused r) : step s = .refused r := by
  rw [step_of_inputs_cons hs]
  simp [doAction, execResetDuring, hw, hfree, hexec]

end

/-- No instruction reads the free value's counter or changes it: it is refused before and after the
counter is advanced, or completes before and after with the same effect. -/
theorem exec_nextFree_cases (i : Instr) (s : State) :
    (∃ r, exec i s = .refused r ∧ exec i s.nextFree = .refused r) ∨
    ∃ u, exec i s = .next u ∧ exec i s.nextFree = .next u.nextFree := by
  rcases exec_outcome_of_cv i s.cv with href | ⟨b, c, hnext⟩
  · exact .inl ⟨_, href s rfl, href s.nextFree rfl⟩
  · exact .inr ⟨_, hnext s rfl, hnext s.nextFree rfl⟩

/-- The free value's counter is nothing an observer sees. -/
theorem observed_nextFree (s : State) : s.nextFree.observed = s.observed := rfl

/-- A reset that advances the counter takes back nothing an observer has seen. -/
theorem observed_nextFree_applyReset (s : State) : s.nextFree.applyReset.observed = s.observed :=
  (State.observed_applyReset _).trans (observed_nextFree s)

/-- Settles O35: a split on the free value, and where it lets the request win, on what executing the
request does (`exec_nextFree_cases`). -/
theorem resetDuringRequestIsAtomic : Obligations.ResetDuringRequestIsAtomic := by
  refine fun s w rest hs => ⟨fun why hw => step_of_illegal_resetDuring hs hw, fun i hw => ?_⟩
  cases hfree : Config.requestBeatsReset s.freeIndex with
  | false =>
    have hstep := step_of_resetDuring_not_executed hs hw hfree
    exact .inl ⟨_, hstep, rfl, rfl, rfl, observed_nextFree_applyReset _⟩
  | true =>
    right
    rcases exec_nextFree_cases i { s with inputs := rest } with ⟨r, href, href'⟩ | ⟨u, hu, hu'⟩
    · exact .inr ⟨r, href, step_of_resetDuring_refused hs hw hfree href'⟩
    · obtain ⟨-, -, hinputs, -, -, -⟩ := execFrame i _ u hu
      have hstep := step_of_resetDuring_executed hs hw hfree hu'
      exact .inl ⟨u, _, hu, hstep, rfl, rfl, hinputs, observed_nextFree_applyReset u⟩

end Sys2Proof.Machine
end

