-- ==== Sys2Proof/Proofs/LastCbcRequest.lean ====
section
/-! SUPPORT. What a run leaves in `CV`: what its last CBC request wrote there (spec
70_reset_and_hazards.md R105, 44_cbc.md R80, R81). -/

namespace Sys2Proof.Machine

/-- Two sequences of requests that complete one after the other have a state between them. -/
theorem runInstrs_append_next_iff {is js : List Instr} {s t : State} :
    runInstrs (is ++ js) s = .next t ↔
      ∃ u, runInstrs is s = .next u ∧ runInstrs js u = .next t := by
  rw [runInstrs_append]
  cases runInstrs is s <;> simp

/-- A run adds its responses behind the old ones, one for each request (R25). -/
theorem runInstrs_rsp {L : List Instr} {s t : State} (h : runInstrs L s = .next t) :
    ∃ r, t.rsp = s.rsp ++ r ∧ r.length = L.length := by
  obtain ⟨r, hr⟩ := exists_runAnswers h
  exact ⟨r, hr.rsp_eq, hr.length_eq⟩

/-- A run without CBC requests leaves `CV` (R22). -/
theorem runInstrs_cv_of_not_isCbc {L : List Instr} {s t : State} (hL : ∀ y ∈ L, isCbc y = false)
    (h : runInstrs L s = .next t) : t.cv = s.cv := by
  induction L generalizing s with
  | nil =>
    cases h
    rfl
  | cons i L ih =>
    obtain ⟨u, hexec, hrun⟩ := runInstrs_cons_next_iff.mp h
    obtain ⟨hi, hrest⟩ := List.forall_mem_cons.mp hL
    exact (ih hrest hrun).trans (exec_cv_of_not_isCbc hi hexec)

/-- The response to the request that runs after `before` stands behind the old ones and those of
`before`, whatever runs after it (R25). -/
theorem runInstrs_response_at {before after : List Instr} {s u v t : State} {b : Byte}
    (hbefore : runInstrs before s = .next u) (hb : v.rsp = u.rsp ++ [b])
    (hafter : runInstrs after v = .next t) :
    t.rsp[s.rsp.length + before.length]? = some b := by
  obtain ⟨r, hr, hlen⟩ := runInstrs_rsp hbefore
  obtain ⟨r', hr', -⟩ := runInstrs_rsp hafter
  simp [hr', hb, hr, hlen]

/-- Settles O36: `CV` is what x left (`execFrame`), since nothing after x writes it, and for CBCE that
is the byte x answered. -/
theorem chainsFromLastCbcRequest : Obligations.ChainsFromLastCbcRequest := by
  intro before after x s t hx hafter h
  obtain ⟨u, hbefore, hrest⟩ := runInstrs_append_next_iff.mp h
  obtain ⟨v, hexec, hrun⟩ := runInstrs_cons_next_iff.mp hrest
  obtain ⟨b, hb, -, -, -, hcv⟩ := execFrame x u v hexec
  have hkept : t.cv = v.cv := runInstrs_cv_of_not_isCbc hafter hrun
  have hrsp := runInstrs_response_at hbefore hb hrun
  rw [hkept, hcv]
  cases x with
  | cbce d k iv => exact ⟨rfl, hrsp.symm⟩
  | cbcd d k iv => exact ⟨rfl, rfl⟩
  | _ => cases hx

end Sys2Proof.Machine
end

