-- ==== Sys2Proof/Proofs/HostDuties.lean ====
section
/-! SUPPORT. The host's duties HD1, HD2 and HD8 as an invariant: while they are kept no step is
refused, and without a reset during a request a run that breaks them is refused (spec
70_reset_and_hazards.md R102, R103). -/

namespace Sys2Proof

/-! ### The duties, action by action -/

@[simp] theorem dutiesKept_nil (chained : Bool) : dutiesKept chained [] = true := rfl

@[simp] theorem dutiesKept_reset (chained : Bool) (as : List Machine.HostAction) :
    dutiesKept chained (.reset :: as) = dutiesKept false as := rfl

@[simp] theorem dutiesKept_resetDuring (chained : Bool) (w : ReqWord)
    (as : List Machine.HostAction) : dutiesKept chained (.resetDuring w :: as) = false := rfl

theorem dutiesKept_illegal_request {w : ReqWord} {why : Illegal} (hw : decode w = .error why)
    (chained : Bool) (as : List Machine.HostAction) :
    dutiesKept chained (.request w :: as) = false := by
  simp only [dutiesKept, hw]

theorem dutiesKept_request {w : ReqWord} {i : Instr} (hw : decode w = .ok i) (chained : Bool)
    (as : List Machine.HostAction) :
    dutiesKept chained (.request w :: as) =
      ((chained || !Machine.chainsFromCV i) && dutiesKept (chained || Machine.isCbc i) as) := by
  simp only [dutiesKept, hw]

end Sys2Proof

namespace Sys2Proof.Machine

/-! ### One step -/

/-- The two reasons for which a run that breaks HD1 or HD2 is refused (R103). -/
def IsDutyRefusal (r : Refusal) : Prop := r = .chainFromNoValue ∨ ∃ why, r = .illegalRequest why

/-- A completed instruction leaves a value in `CV` if it found one there or is a CBC one (R16). -/
theorem exec_cv_isSome {i : Instr} {s t : State} (h : exec i s = .next t) :
    t.cv.isSome = (s.cv.isSome || isCbc i) := by
  rw [Bool.eq_iff_iff, exec_cv_isSome_iff h, Bool.or_eq_true, or_comm]

/-- A step on a request is refused, and then the duties are broken, or takes the request, and then
they are kept after it exactly when they were before. -/
theorem step_request_duties {s : State} {w : ReqWord} {rest : List HostAction}
    (hs : s.inputs = .request w :: rest) :
    (¬ SafeInputs s ∧ ∃ r, step s = .refused r ∧ IsDutyRefusal r) ∨
    ∃ t, step s = .next t ∧ t.inputs = rest ∧ (SafeInputs t ↔ SafeInputs s) := by
  cases hw : decode w with
  | error why =>
    have hbroken : ¬ SafeInputs s := by simp [SafeInputs, hs, dutiesKept_illegal_request hw]
    exact .inl ⟨hbroken, _, step_of_illegal_request hs hw, .inr ⟨why, rfl⟩⟩
  | ok i =>
    have hsafe : SafeInputs s ↔ (s.cv.isSome || !chainsFromCV i) = true ∧
        dutiesKept (s.cv.isSome || isCbc i) rest = true := by
      rw [SafeInputs, hs, dutiesKept_request hw, Bool.and_eq_true]
    have hstep := step_of_request hs hw
    rcases exec_cases i { s with inputs := rest } with ⟨hi, hcv, href⟩ | ⟨hnot, b, hnext⟩
    · have hnone : s.cv = none := hcv
      exact .inl ⟨by simp [hsafe, hnone, hi], _, hstep.trans href, .inl rfl⟩
    · have hguard : (s.cv.isSome || !chainsFromCV i) = true := by
        cases hcv : s.cv with
        | none => simpa [hcv] using hnot
        | some c => rfl
      refine .inr ⟨_, hstep.trans hnext, rfl, ?_⟩
      rw [SafeInputs, exec_cv_isSome hnext, hsafe]
      exact (and_iff_right hguard).symm

/-- The same for every action but a reset during a request: a reset between requests leaves the duties
as they were. -/
theorem step_duties {s : State} {a : HostAction} {rest : List HostAction}
    (hs : s.inputs = a :: rest) (ha : ∀ w, a ≠ .resetDuring w) :
    (¬ SafeInputs s ∧ ∃ r, step s = .refused r ∧ IsDutyRefusal r) ∨
    ∃ t, step s = .next t ∧ t.inputs = rest ∧ (SafeInputs t ↔ SafeInputs s) := by
  cases a with
  | request w => exact step_request_duties hs
  | reset =>
    refine .inr ⟨_, step_of_reset hs, rfl, ?_⟩
    simp [SafeInputs, hs]
  | resetDuring w => exact absurd rfl (ha w)

/-- Duties that are kept have no reset during a request as their first action (HD8). -/
theorem ne_resetDuring_of_safeInputs {s : State} {a : HostAction} {rest : List HostAction}
    (hs : s.inputs = a :: rest) (hsafe : SafeInputs s) (w : ReqWord) : a ≠ .resetDuring w := by
  rintro rfl
  simp [SafeInputs, hs] at hsafe

/-- Settles O50: of the two cases of `step_duties` only the second has its duties kept. -/
theorem stepKeepsDuties : Obligations.StepKeepsDuties := by
  intro s hsafe
  cases hs : s.inputs with
  | nil => exact ⟨s, step_of_inputs_nil hs, hsafe⟩
  | cons a rest =>
    rcases step_duties hs (ne_resetDuring_of_safeInputs hs hsafe) with
      ⟨hbroken, -⟩ | ⟨t, ht, -, hkept⟩
    · exact absurd hsafe hbroken
    · exact ⟨t, ht, hkept.mpr hsafe⟩

/-! ### Runs -/

/-- Settles O52, by induction on the number of steps. -/
theorem dutifulRunIsNeverRefused : Obligations.DutifulRunIsNeverRefused := by
  intro n s hsafe
  induction n generalizing s with
  | zero => exact ⟨s, rfl, hsafe⟩
  | succ n ih =>
    obtain ⟨u, hstep, hu⟩ := stepKeepsDuties s hsafe
    rw [stepN_succ_of_next hstep]
    exact ih u hu

/-- Settles O53, by induction on the waiting actions: by `step_duties` broken duties are refused at
once or stay broken, and with no action left they are not broken. -/
theorem brokenDutyIsRefused : Obligations.BrokenDutyIsRefused := by
  intro s hreset hbroken
  induction hs : s.inputs generalizing s with
  | nil => simp [SafeInputs, hs] at hbroken
  | cons a rest ih =>
    have hall : ∀ w, HostAction.resetDuring w ∉ a :: rest := fun w => hs ▸ hreset w
    have ha : ∀ w, a ≠ .resetDuring w := fun w h => hall w (h ▸ List.mem_cons_self)
    rcases step_duties hs ha with ⟨-, r, href, hreason⟩ | ⟨t, ht, hinputs, hkept⟩
    · exact ⟨r, stepN_succ_of_refused href, hreason⟩
    · have hrest : NoResetDuring t := fun w hw =>
        hall w (List.mem_cons_of_mem a (hinputs ▸ hw))
      rw [List.length_cons, stepN_succ_of_next ht]
      exact ih t hrest (mt hkept.mp hbroken) hinputs

/-! ### At reset -/

/-- Settles O51: nothing waits after reset, and the one word presented decodes to an instruction
that needs no value in `CV`. -/
theorem dutiesHoldAtReset : Obligations.DutiesHoldAtReset := by
  refine ⟨rfl, fun i hi => ?_⟩
  have hinputs : (State.reset.present [i]).inputs = [.request (encode i)] := rfl
  rw [SafeInputs, hinputs, dutiesKept_request (decode_encode i), hi]
  simp

end Sys2Proof.Machine
end
